-- ==== Sys2Proof/Word.lean ====
section
/-! DEFINITION. The word types: a 16-bit limb and a DoubleWord of two limbs (00_scope.md R7, R10). -/

namespace Sys2Proof

/-- A limb: "one 16-bit unsigned component of a larger multi-word value" (R7, R13). -/
abbrev Limb := BitVec 16

/-- A DoubleWord: "an ordered pair of 16-bit unsigned limbs `(lo, hi)`" (R41); `hi` is the more significant limb. -/
structure DoubleWord where
  lo : Limb
  hi : Limb
  deriving DecidableEq, Repr

end Sys2Proof
end

