-- ==== Sys2Proof/Config.lean ====
section
/-! DEFINITION. What an implementation fixes (00_scope.md R7) and the free values the spec leaves open. -/

namespace Sys2Proof

/-- Width of a request word (30_encoding.md R60, R66). -/
abbrev Config.reqWidth : Nat := 65

/-- Width of a response word (30_encoding.md R62, R66). -/
abbrev Config.rspWidth : Nat := 33

/-- FREE VALUE (log 4): `LATENCY`, how many steps pass between accepting a request and its compute step. It "may be 0
and may depend on the operands" (70_reset_and_hazards.md R166, D9, I3); the first argument numbers the draw, so two
equal requests may wait differently. Being a natural number it is finite, which is the spec's weak fairness (R30). -/
opaque Config.latency : Nat → BitVec 1 → DoubleWord → DoubleWord → Nat

/-- FREE VALUE (log 5): what the 33 response pins carry where they "carry no value" (10_state.md R28, I2). -/
opaque Config.freeRsp : Nat → BitVec Config.rspWidth

end Sys2Proof
end

