-- ==== Sys2Proof/Syntax.lean ====
section
/-! DEFINITION. The operation set of the unit, one constructor per row of the opcode table (00_scope.md R2). -/

namespace Sys2Proof

/-- The two operations, with their two operands taken whole from the request (30_encoding.md R60, R61, R64). -/
inductive Instr where
  /-- `MUL a, b`: multiplicand `a`, multiplier `b` (R80). -/
  | mul (a b : DoubleWord)
  /-- `DIVS a, b`: signed dividend `a`, signed divisor `b` (R106). -/
  | divs (a b : DoubleWord)
  deriving DecidableEq, Repr

end Sys2Proof
end

