-- ==== Sys2Proof/WellFormed.lean ====
section
/-! DEFINITION. What is well formed: the length of a request word, and every instruction (30_encoding.md R65, R66). -/

namespace Sys2Proof

/-- A number is a request word when it has at most 65 bits: "every request is exactly one `REQ` word of 65 bits" (R66). -/
def isReqWord (w : Nat) : Bool := decide (w < 2 ^ Config.reqWidth)

/-- Every instruction is well formed: "every operand bit pattern is a legal DoubleWord" (R65), and the limb type
already holds each limb to its 16 bits. -/
def Instr.wf : Instr → Bool
  | .mul _ _ => true
  | .divs _ _ => true

end Sys2Proof
end

