-- ==== Sys2Proof/Decode.lean ====
section
/-! DEFINITION. The decoder, total on every word and refusing a wrong length by name, and after it the encoder
(30_encoding.md R60, R61, R66, R70). -/

namespace Sys2Proof

/-- Why a number is no request word. -/
inductive DecodeError where
  /-- More than 65 bits: "There are no compressed, variable-length or prefixed forms" (R66). -/
  | notOneReqWord
  deriving DecidableEq, Repr

/-- Operation select: 0 is MUL, 1 is DIVS; "Together these cover every value of the field" (R61). -/
def decodeOp (op : BitVec 1) (a b : DoubleWord) : Instr :=
  if op = 0#1 then .mul a b else .divs a b

/-- `op = REQ[64]` (R70). -/
def reqOpField (w : BitVec 65) : BitVec 1 := w.extractLsb' 64 1

/-- `a = (REQ[47:32], REQ[63:48])` as `(lo, hi)` (R70). -/
def reqAField (w : BitVec 65) : DoubleWord := ⟨w.extractLsb' 32 16, w.extractLsb' 48 16⟩

/-- `b = (REQ[15:0], REQ[31:16])` as `(lo, hi)` (R70). -/
def reqBField (w : BitVec 65) : DoubleWord := ⟨w.extractLsb' 0 16, w.extractLsb' 16 16⟩

/-- The decoder on request words: "total on all 2^65 words" (R70). -/
def decodeWord (w : BitVec 65) : Instr := decodeOp (reqOpField w) (reqAField w) (reqBField w)

/-- The decoder on any number of bits: the low `nbits` bits of `w` are the instruction, those above them 0; what has
more than 65 bits is refused by name (R66, log 15). -/
def decode (nbits w : Nat) : Except DecodeError Instr :=
  if isReqWord (w % 2 ^ nbits) then .ok (decodeWord (BitVec.ofNat 65 (w % 2 ^ nbits))) else .error .notOneReqWord

/-- The instruction the decoder reads from an opcode-table word; a request is one word, whose bit 0 is its least
significant, so the table's numbering is the spec's own (R60). -/
def decodeTableWord (nbits w : Nat) : Option Instr := (decode nbits w).toOption

/-- A request word from its fields, most significant first: `op`, `a_hi`, `a_lo`, `b_hi`, `b_lo` (R60). -/
def reqWord (op : BitVec 1) (a b : DoubleWord) : BitVec 65 := op ++ a.hi ++ a.lo ++ b.hi ++ b.lo

/-- The operation select of an instruction (R61). -/
def Instr.op : Instr → BitVec 1
  | .mul _ _ => 0#1
  | .divs _ _ => 1#1

/-- Operand `a` (R63). -/
def Instr.a : Instr → DoubleWord
  | .mul a _ => a
  | .divs a _ => a

/-- Operand `b` (R63). -/
def Instr.b : Instr → DoubleWord
  | .mul _ b => b
  | .divs _ b => b

/-- The encoder: the one request word of an instruction (R60, R61). -/
def encode (i : Instr) : BitVec 65 := reqWord i.op i.a i.b

end Sys2Proof
end

