-- ==== Sys2Proof/Machine/Operands.lean ====
section
/-! DEFINITION. Readings of a DoubleWord operand (00_scope.md R10, 30_encoding.md R63). -/

namespace Sys2Proof.Machine

/-- `val(d) = d.hi * 65536 + d.lo`, the unsigned value (R10). -/
def val (d : DoubleWord) : Nat := d.hi.toNat * 65536 + d.lo.toNat

/-- `d.hi[15]`, "the sign bit (two's-complement)" (R41, R63). -/
def signBit (d : DoubleWord) : Bool := d.hi.getLsbD 15

/-- `sval(d) = val(d) − 2^32 * d.hi[15]`, the signed value (R10). -/
def sval (d : DoubleWord) : Int := (val d : Int) - 2 ^ 32 * (signBit d).toNat

/-- `dw(v)`: the DoubleWord of `v mod 2^32`, for any integer `v` (R10); `dw(−n)` is a negative literal (R12). -/
def dw (v : Int) : DoubleWord := ⟨BitVec.ofInt 16 v, BitVec.ofInt 16 (v / 65536)⟩

/-- "divisor encodes zero": `b.lo = 0 and b.hi = 0` (R106, R140). -/
def isZero (d : DoubleWord) : Bool := d.lo == 0#16 && d.hi == 0#16

end Sys2Proof.Machine
end

