-- ==== Sys2Proof/Machine/Limbs.lean ====
section
/-! DEFINITION. The limb-level sub-operations of DIVS, in the spec's order (41_divide.md R100 to R105). Arithmetic is
exact, on Nat or Int, and each result is narrowed to its limb at the end (00_scope.md R9). -/

namespace Sys2Proof.Machine

/-- Negation-with-borrow `NEG(d)` (R100). `x & 0xFFFF` of a negative `x` is `x mod 2^16` (R9, log 11). -/
def neg (d : DoubleWord) : DoubleWord :=
  let borrow : Int := if d.lo ≠ 0#16 then 1 else 0
  ⟨BitVec.ofInt 16 (-(d.lo.toNat : Int)), BitVec.ofInt 16 (-borrow - (d.hi.toNat : Int))⟩

/-- `ABS(d)`: negated only when its sign bit is 1 (R101, D11). -/
def absVal (d : DoubleWord) : DoubleWord := if signBit d then neg d else d

/-- Doubleword-by-word division `DDW(n, v)`, for `v ≠ 0` (R102); no caller passes 0 (log 12). -/
def ddw (n : DoubleWord) (v : Limb) : DoubleWord :=
  let qHi := n.hi.toNat / v.toNat
  let rem := n.hi.toNat % v.toNat
  let combined := rem * 65536 + n.lo.toNat
  ⟨BitVec.ofNat 16 (combined / v.toNat), BitVec.ofNat 16 qHi⟩

/-- Paired shift `SHR1(d)`: "moves bit 0 of the high limb into bit 15 of the low limb before halving both limbs" (R103). -/
def shr1 (d : DoubleWord) : DoubleWord :=
  ⟨(d.lo >>> 1) ||| ((d.hi &&& 1#16) <<< 15), d.hi >>> 1⟩

/-- The loop of `NORMALIZE` (R103): shifts both in lockstep "until the divisor's high limb becomes zero", counting in
`k`. The first argument bounds the turns. -/
def normalizeLoop : Nat → DoubleWord → DoubleWord → Nat → DoubleWord × DoubleWord × Nat
  | 0, a, b, k => (a, b, k)
  | n + 1, a, b, k => if b.hi ≠ 0#16 then normalizeLoop n (shr1 a) (shr1 b) (k + 1) else (a, b, k)

/-- `NORMALIZE(A, B)` (R103). A 16-bit high limb is zero after at most 16 shifts, so the bound never cuts the loop
(log 13). -/
def normalize (a b : DoubleWord) : DoubleWord × DoubleWord × Nat := normalizeLoop 16 a b 0

/-- `CORRECT(t, A, B)`: the product is the trial quotient times the whole unshifted divisor magnitude, compared with
the unshifted dividend (R104, C1, D12). -/
def correct (t : Nat) (a b : DoubleWord) : Nat := if t * val b > val a then t - 1 else t

/-- The trial quotient of the HN path, before correction (R105). -/
def trialQuotient (a b : DoubleWord) : Nat :=
  let (a', b', _) := normalize a b
  val (ddw a' b'.lo)

/-- Magnitude division `MAGDIV(A, B)`, for `val(B) ≠ 0` (R105): the H0 path when the divisor's high limb is zero, the
HN path otherwise. -/
def magdiv (a b : DoubleWord) : DoubleWord :=
  if b.hi = 0#16 then ddw a b.lo else dw (correct (trialQuotient a b) a b)

end Sys2Proof.Machine
end

