-- ==== Sys2Proof/Machine/State.lean ====
section
/-! DEFINITION. The state of the machine: the transaction state of the unit (10_state.md R27), the input signals
(R25, R26, 70_reset_and_hazards.md R160), and the model's own bookkeeping. The unit has no registers, no program
counter, no flags and no memory (R20 to R24, R33). -/

namespace Sys2Proof.Machine

/-- The answer to one request (R14, R26): a result with status OK, or the error DivisionByZero, which has no result
value (30_encoding.md R69, D8). -/
inductive Response where
  /-- Status OK and the result `r`. -/
  | ok (r : DoubleWord)
  /-- Status DBZ, "the error with no value". -/
  | dbz
  deriving DecidableEq, Repr

/-- The transaction state, "The block's only state" (R27). -/
inductive Transaction where
  /-- No operation held. -/
  | idle
  /-- An accepted request whose response is not yet formed, with its captured `op`, `a` and `b`. -/
  | busy (op : BitVec 1) (a b : DoubleWord)
  /-- A formed response not yet taken by the caller. -/
  | done (rsp : Response)
  deriving DecidableEq, Repr

/-- The input signals of the unit at one step: the request channel (R25), `rsp_ready` (R26) and the reset input (R160). -/
structure Signals where
  rst      : Bool
  reqValid : Bool
  reqOp    : BitVec 1
  reqALo   : Limb
  reqAHi   : Limb
  reqBLo   : Limb
  reqBHi   : Limb
  rspReady : Bool
  deriving DecidableEq, Repr

/-- Why a step can stop with a fault: never. "Exactly one error kind exists in the core" (60_exceptions.md R140), and
it is a response; "No other failure modes are in scope" (R141). -/
inductive Fault where
  deriving DecidableEq, Repr

/-- Why the model says nothing about a step. -/
inductive Refusal where
  /-- Raised by exec's arm of an instruction that has no meaning yet (no arm raises it now). Safe: it says nothing. -/
  | notModelled (mnemonic : String)
  /-- Raised by `step` when the caller changes a request that waits, at `req_valid = 1` (70_reset_and_hazards.md R164;
  I6: `refuse`). Safe: "a claim about such a caller is unsaid" (log 7). -/
  | requestNotHeld
  deriving DecidableEq, Repr

/-- The machine. `st` is the spec's state; `pins` are the input signals of this step. The last three fields are the
model's own (INVENTORY.md, State). -/
structure State where
  /-- The transaction state (R27). -/
  st     : Transaction
  /-- The input signals at this step. -/
  pins   : Signals
  /-- The input signals at the coming steps, first the next one; when there is none left the signals stay (log 3). -/
  coming : List Signals
  /-- LATENCY steps left before the compute step of the operation in BUSY (R166, log 4). -/
  wait   : Nat
  /-- Numbers the draws of free values (log 6). -/
  draw   : Nat
  deriving DecidableEq, Repr

/-- All input signals low. -/
def Signals.quiet : Signals :=
  { rst := false, reqValid := false, reqOp := 0#1, reqALo := 0#16, reqAHi := 0#16, reqBLo := 0#16, reqBHi := 0#16,
    rspReady := false }

/-- Right after reset: `st = IDLE` (R35, R160); the inputs and the model's own fields as log 2, log 4 and log 6 say. -/
def State.reset : State := { st := .idle, pins := Signals.quiet, coming := [], wait := 0, draw := 0 }

end Sys2Proof.Machine
end

