-- ==== Sys2Proof/Machine/Flags.lean ====
section
/-! DEFINITION. The status of a response. The unit has no flag that persists (10_state.md R22): "The only status is the
per-response `status` field". -/

namespace Sys2Proof.Machine

/-- `status`: 0 = OK, 1 = DBZ (30_encoding.md R62). -/
def Response.status : Response → BitVec 1
  | .ok _ => 0#1
  | .dbz => 1#1

/-- The result value of a response: "no value when `rsp_status = 1`" (10_state.md R26). -/
def Response.result : Response → Option DoubleWord
  | .ok r => some r
  | .dbz => none

end Sys2Proof.Machine
end

