-- ==== Sys2Proof/Machine/Ops.lean ====
section
/-! DEFINITION. The named operations on the state: the output signals (10_state.md R28), the response word
(30_encoding.md R62), forming a response and raising the one error, and the effects of the accept, wait, deliver and
reset steps (R29 to R31, 70_reset_and_hazards.md R160). -/

namespace Sys2Proof.Machine

/-- `req_ready = (st = IDLE)` (R28). -/
def State.reqReady (s : State) : Bool :=
  match s.st with
  | .idle => true
  | .busy _ _ _ => false
  | .done _ => false

/-- `rsp_valid = (st is DONE(_))` (R28). -/
def State.rspValid (s : State) : Bool :=
  match s.st with
  | .idle => false
  | .busy _ _ _ => false
  | .done _ => true

/-- A response word from its fields, most significant first: `status`, `r_hi`, `r_lo` (R62). -/
def rspWord (status : BitVec 1) (r : DoubleWord) : BitVec 33 := status ++ r.hi ++ r.lo

/-- The 32 free result bits of a free response word. -/
def freeResult (w : BitVec 33) : DoubleWord := ⟨w.extractLsb' 0 16, w.extractLsb' 16 16⟩

/-- The 33 response pins (R28, R62). Where a field carries no value it is a free value (I2, log 5): the result bits of
a DBZ response, and every field while `rsp_valid = 0`. -/
def State.rspPins (s : State) : BitVec 33 :=
  match s.st with
  | .done (.ok r) => rspWord 0#1 r
  | .done .dbz => rspWord 1#1 (freeResult (Config.freeRsp s.draw))
  | .idle => Config.freeRsp s.draw
  | .busy _ _ _ => Config.freeRsp s.draw

/-- How a caller reads a response word: the status first (R165), and no result bits when it is 1 (R69). -/
def readRspWord (w : BitVec 33) : Response :=
  if w.extractLsb' 32 1 = 0#1 then .ok (freeResult w) else .dbz

/-- Operand `a` on the request channel (R25). -/
def Signals.a (p : Signals) : DoubleWord := ⟨p.reqALo, p.reqAHi⟩

/-- Operand `b` on the request channel (R25). -/
def Signals.b (p : Signals) : DoubleWord := ⟨p.reqBLo, p.reqBHi⟩

/-- The signals `q` change no request that `p` presents: they present the same `op`, `a` and `b`, or none. R164 binds
`req_op`, `req_a_*` and `req_b_*` while `req_valid = 1`; while it is 0 they carry "any value" (I5), so a caller may lower
`req_valid`. -/
def Signals.holds (p q : Signals) : Bool :=
  !q.reqValid || (q.reqOp == p.reqOp && q.a == p.a && q.b == p.b)

/-- The caller breaks its duty: a request waits (`req_valid = 1`, `req_ready = 0`), no reset is on, and the next
signals present another in its place (70_reset_and_hazards.md R164, I6, log 7). -/
def State.breaksHold (s : State) : Bool :=
  match s.coming with
  | [] => false
  | q :: _ => !s.pins.rst && s.pins.reqValid && !s.reqReady && !s.pins.holds q

/-- Every step: the next input signals arrive, and the draws of the step are used up. -/
def State.advance (s : State) : State :=
  { s with pins := s.coming.headD s.pins, coming := s.coming.tail, draw := s.draw + 1 }

/-- `return d` and the end of the compute step: `st <- DONE(rsp)` (R11, R30). -/
def State.respond (s : State) (rsp : Response) : State := { s with st := .done rsp }

/-- `raise DivisionByZero()`: the response "carries status DBZ and no result value" (R11, R140). "the block saves no
state, changes no mode or mask, uses no stack and transfers control nowhere" (60_exceptions.md R143), so this is all of
taking the exception; there is no return from it (R144). -/
def State.raiseDivisionByZero (s : State) : State := s.respond .dbz

/-- The accept step (R29): the request's values are captured, and its latency is drawn (R166). -/
def State.accept (s : State) (op : BitVec 1) (a b : DoubleWord) : State :=
  { s with st := .busy op a b, wait := Config.latency s.draw op a b }

/-- A step of BUSY before the compute step (R30, R166). -/
def State.countDown (s : State) : State := { s with wait := s.wait - 1 }

/-- The deliver step: `st <- IDLE` (R31). -/
def State.release (s : State) : State := { s with st := .idle }

/-- The reset step: `st <- IDLE` from any state, and the operation held is discarded (R160, R161). -/
def State.resetBlock (s : State) : State := { s with st := .idle, wait := 0 }

end Sys2Proof.Machine
end

