-- ==== Sys2Proof/Machine/Divide.lean ====
section
/-! DEFINITION. DIVS, the signed truncating 32 by 32 divide (41_divide.md R106 to R113). -/

namespace Sys2Proof.Machine

/-- Steps 1 to 5 of `DIVS(a, b)`, for `val(b) ≠ 0` (R106): the sign is "recorded before destroying sign information".
`0x80000000 ÷ 0xFFFFFFFF` gives `0x80000000` (R108, log 10). -/
def divideSigned (a b : DoubleWord) : DoubleWord :=
  let q := magdiv (absVal a) (absVal b)
  if signBit a ^^ signBit b then neg q else q

/-- DIVS: a zero divisor raises DivisionByZero "whatever the dividend" and before any other step (R106, R142);
otherwise status OK and the quotient. -/
def execDivs (a b : DoubleWord) (s : State) : Host.Outcome State Fault Refusal :=
  if isZero b then .next s.raiseDivisionByZero else .next (s.respond (.ok (divideSigned a b)))

end Sys2Proof.Machine
end

