-- ==== Sys2Proof/Machine/Multiply.lean ====
section
/-! DEFINITION. MUL, the truncating 32 by 32 multiply (40_multiply.md R80 to R85). -/

namespace Sys2Proof.Machine

/-- The general path: three of the four 16 by 16 partial products (R82); the inner sum is exact (R84). -/
def multiplyGeneral (a b : DoubleWord) : DoubleWord :=
  let p := a.lo.toNat * b.lo.toNat
  ⟨BitVec.ofNat 16 p, BitVec.ofNat 16 (p / 65536 + a.hi.toNat * b.lo.toNat + a.lo.toNat * b.hi.toNat)⟩

/-- `MUL(a, b)` (R80): the fast path when both high limbs are zero (R81), else the general path. -/
def multiply (a b : DoubleWord) : DoubleWord :=
  if a.hi = 0#16 ∧ b.hi = 0#16 then
    let p := a.lo.toNat * b.lo.toNat
    ⟨BitVec.ofNat 16 p, BitVec.ofNat 16 (p / 65536)⟩
  else multiplyGeneral a b

/-- MUL: status OK and the product, for every operand; "The operation never fails" (R80, R141). -/
def execMul (a b : DoubleWord) (s : State) : Host.Outcome State Fault Refusal :=
  .next (s.respond (.ok (multiply a b)))

end Sys2Proof.Machine
end

