-- ==== Sys2Proof/Machine/Dispatch.lean ====
section
/-! DEFINITION. One arm per instruction. -/

namespace Sys2Proof.Machine

-- The compute step's effect of one operation, from any state (10_state.md R30, log 14).
def exec (i : Instr) (s : State) : Host.Outcome State Fault Refusal :=
  match i with
  | .mul a b => Sys2Proof.Machine.execMul a b s
  | .divs a b => Sys2Proof.Machine.execDivs a b s

end Sys2Proof.Machine
end

