-- ==== Sys2Proof/Machine/Event.lean ====
section
/-! DEFINITION. What happens at a step: which of the spec's steps the state and its input signals allow
(10_state.md R28 to R31, 70_reset_and_hazards.md R160, R165). -/

namespace Sys2Proof.Machine

/-- The steps of the unit. -/
inductive Event where
  /-- The reset input is on (R160). -/
  | reset
  /-- IDLE with no request. -/
  | noRequest
  /-- The accept step, with the values captured (R29). -/
  | accept (op : BitVec 1) (a b : DoubleWord)
  /-- BUSY, the latency not yet over (R166). -/
  | latency
  /-- The compute step of the operation held (R30). -/
  | compute (op : BitVec 1) (a b : DoubleWord)
  /-- DONE, and the caller does not take the response (R165, I7). -/
  | stall
  /-- The deliver step: "the caller receives `rsp`" (R31). -/
  | deliver (rsp : Response)
  deriving DecidableEq, Repr

/-- The event of this step. Reset wins over the rest (R160: "from any state"; R161: "No response is delivered"; log 8). -/
def State.event (s : State) : Event :=
  if s.pins.rst then .reset
  else match s.st with
    | .idle => if s.pins.reqValid then .accept s.pins.reqOp s.pins.a s.pins.b else .noRequest
    | .busy op a b => if s.wait = 0 then .compute op a b else .latency
    | .done rsp => if s.pins.rspReady then .deliver rsp else .stall

end Sys2Proof.Machine
end

