-- ==== Sys2Proof/Machine/Step.lean ====
section
/-! DEFINITION. One step of the machine, and how the host places an instruction to run next. -/

namespace Sys2Proof.Machine

/-- One step: its event's effect, on the state whose next input signals have arrived. A caller that breaks its hold
duty is refused (R164, I6, log 7); nothing else is, and nothing faults. The accept, compute and deliver steps are never
merged (R32, log 9). -/
def step (s : State) : Host.Outcome State Fault Refusal :=
  if s.breaksHold then .refused .requestNotHeld
  else match s.event with
    | .reset => .next s.advance.resetBlock
    | .noRequest => .next s.advance
    | .accept op a b => .next (s.advance.accept op a b)
    | .latency => .next s.advance.countDown
    | .compute op a b => exec (decodeOp op a b) s.advance
    | .stall => .next s.advance
    | .deliver _ => .next s.advance.release

/-- The signals of `s` with the reset input low. -/
def State.noReset (s : State) : Signals := { s.pins with rst := false }

/-- `s` with the request word `w` accepted and its latency over, so that the next step computes it: the unit fetches
nothing (10_state.md R21), it computes the request it holds (R30). The reset input is low at that step, and the signals
stay for one step more, so that the caller breaks no duty at it (log 1). -/
def State.withFetchWord (s : State) (nbits w : Nat) : State :=
  let r := BitVec.ofNat 65 (w % 2 ^ nbits)
  { s with st := .busy (reqOpField r) (reqAField r) (reqBField r), wait := 0, pins := s.noReset,
           coming := s.noReset :: s.coming }

end Sys2Proof.Machine
end

