-- ==== Sys2Proof/Machine/Assembler.lean ====
section
/-! DEFINITION. The text of requests and responses (30_encoding.md R67, R60, R62; 00_scope.md R12): the mnemonic forms
`MUL a, b` and `DIVS a, b`, their call-form aliases, the three ways to write an operand, and the digits of a word. Text
is a list of characters; what the spec leaves open about spacing and letters is log 16. The names that the spec's
programs give to results are the caller's (R67) and not here. -/

namespace Sys2Proof.Machine

/-- An operand as it is written (R67). -/
inductive Literal where
  /-- A decimal integer, "possibly negative, standing for `dw(n)`". -/
  | decimal (n : Int)
  /-- A `0x` literal; well formed with at most 8 digits, so below 2^32. -/
  | hex (v : Nat)
  /-- A limb pair, high limb first. -/
  | limbs (hi lo : Nat)
  deriving DecidableEq, Repr

/-- The literal is one the spec allows: `0x` "of at most 8 digits", and "two 16-bit hexadecimal limbs" (R67). -/
def Literal.wf : Literal → Bool
  | .decimal _ => true
  | .hex v => decide (v < 2 ^ 32)
  | .limbs hi lo => decide (hi < 2 ^ 16) && decide (lo < 2 ^ 16)

/-- The DoubleWord a literal stands for (R67, R12). -/
def Literal.value : Literal → DoubleWord
  | .decimal n => dw n
  | .hex v => dw v
  | .limbs hi lo => ⟨BitVec.ofNat 16 lo, BitVec.ofNat 16 hi⟩

/-- The value of a hexadecimal digit, in either case. -/
def digit (c : Char) : Option Nat :=
  let n := c.toNat
  if 48 ≤ n ∧ n ≤ 57 then some (n - 48)
  else if 65 ≤ n ∧ n ≤ 70 then some (n - 55)
  else if 97 ≤ n ∧ n ≤ 102 then some (n - 87)
  else none

/-- The longest run of digits below `base` at the front: its value on top of `v`, how many digits on top of `k`, and
the rest. -/
def readDigits (base : Nat) : Nat → Nat → List Char → Nat × Nat × List Char
  | v, k, [] => (v, k, [])
  | v, k, c :: cs =>
    match digit c with
    | some d => if d < base then readDigits base (v * base + d) (k + 1) cs else (v, k, c :: cs)
    | none => (v, k, c :: cs)

/-- The text without its leading spaces. -/
def skipSpaces : List Char → List Char
  | [] => []
  | c :: cs => if c = ' ' then skipSpaces cs else c :: cs

/-- The text after a fixed word. -/
def afterWord : List Char → List Char → Option (List Char)
  | [], cs => some cs
  | _ :: _, [] => none
  | w :: ws, c :: cs => if w = c then afterWord ws cs else none

/-- The opening brace of a limb pair. -/
def openBrace : Char := Char.ofNat 0x7B

/-- The closing brace of a limb pair. -/
def closeBrace : Char := Char.ofNat 0x7D

/-- A number of `1` to `most` digits at the front. -/
def readNumber (base most : Nat) (cs : List Char) : Option (Nat × List Char) :=
  let (v, k, rest) := readDigits base 0 0 cs
  if 1 ≤ k ∧ k ≤ most then some (v, rest) else none

/-- A decimal integer at the front; its digits are not bounded. -/
def readDecimal (cs : List Char) : Option (Nat × List Char) := readNumber 10 cs.length cs

/-- A literal at the front (R67); both minus signs of R12 are read. -/
def readLiteral (cs : List Char) : Option (Literal × List Char) :=
  match cs with
  | [] => none
  | c :: rest =>
    if c = openBrace then
      match readNumber 16 4 rest with
      | none => none
      | some (hi, r) =>
        match afterWord [':'] r with
        | none => none
        | some r =>
          match readNumber 16 4 r with
          | none => none
          | some (lo, r) => (afterWord [closeBrace] r).map fun r => (.limbs hi lo, r)
    else if c = '-' ∨ c = '−' then (readDecimal rest).map fun r => (.decimal (-(r.1 : Int)), r.2)
    else match afterWord ['0', 'x'] cs with
      | some r => (readNumber 16 8 r).map fun r => (.hex r.1, r.2)
      | none => (readDecimal cs).map fun r => (.decimal (r.1 : Int), r.2)

/-- Two operands, a comma between them, and then the word that ends the request. -/
def readPair (op : BitVec 1) (last cs : List Char) : Option Instr :=
  match readLiteral (skipSpaces cs) with
  | none => none
  | some (a, r) =>
    match afterWord [','] (skipSpaces r) with
    | none => none
    | some r =>
      match readLiteral (skipSpaces r) with
      | none => none
      | some (b, r) =>
        match afterWord last (skipSpaces r) with
        | none => none
        | some r => if skipSpaces r = [] then some (decodeOp op a.value b.value) else none

/-- A request as it is written: `MUL a, b`, `DIVS a, b`, `multiply(a, b)` or `divideSigned(a, b)` (R67). -/
def readRequest (cs : List Char) : Option Instr :=
  match afterWord ['M', 'U', 'L', ' '] cs with
  | some r => readPair 0#1 [] r
  | none =>
  match afterWord ['D', 'I', 'V', 'S', ' '] cs with
  | some r => readPair 1#1 [] r
  | none =>
  match afterWord ['m', 'u', 'l', 't', 'i', 'p', 'l', 'y', '('] cs with
  | some r => readPair 0#1 [')'] r
  | none =>
  match afterWord ['d', 'i', 'v', 'i', 'd', 'e', 'S', 'i', 'g', 'n', 'e', 'd', '('] cs with
  | some r => readPair 1#1 [')'] r
  | none => none

/-- A response as it is written: `→ r` or `→ DBZ` (R67). -/
def readResponse (cs : List Char) : Option Response :=
  match afterWord ['→'] cs with
  | none => none
  | some r =>
    match afterWord ['D', 'B', 'Z'] (skipSpaces r) with
    | some r => if skipSpaces r = [] then some .dbz else none
    | none =>
      match readLiteral (skipSpaces r) with
      | none => none
      | some (l, r) => if skipSpaces r = [] then some (.ok l.value) else none

/-- One hexadecimal digit, capital letters (95_test_vectors.md, Encodings). -/
def digitChar (n : Nat) : Char := if n < 10 then Char.ofNat (48 + n) else Char.ofNat (55 + n)

/-- `k` digits of `n` in a base up to 16, the most significant first. -/
def writeDigits (base : Nat) : Nat → Nat → List Char
  | 0, _ => []
  | k + 1, n => writeDigits base k (n / base) ++ [digitChar (n % base)]

/-- `k` hexadecimal digits of `n`, the most significant first. -/
def hexDigits (k n : Nat) : List Char := writeDigits 16 k n

/-- A DoubleWord as 8 hexadecimal digits. -/
def hexDoubleWord (d : DoubleWord) : List Char := hexDigits 8 (val d)

/-- A request word "written as 17 hexadecimal digits, `op` first" (R60). -/
def requestDigits (i : Instr) : List Char :=
  digitChar i.op.toNat :: '_' :: hexDoubleWord i.a ++ '_' :: hexDoubleWord i.b

/-- A response word "written as 9 hexadecimal digits, `status` first"; "`x` marks bits with no value" (R62). -/
def responseDigits : Response → List Char
  | .ok r => '0' :: '_' :: hexDoubleWord r
  | .dbz => '1' :: '_' :: List.replicate 8 'x'

/-- A literal as text: decimal, `0x` with 8 digits, or a limb pair with 4 digits a limb (R67). -/
def hexLiteral (d : DoubleWord) : List Char := '0' :: 'x' :: hexDoubleWord d

/-- A DoubleWord as a limb pair, high limb first (R67). -/
def limbsLiteral (d : DoubleWord) : List Char :=
  openBrace :: hexDigits 4 d.hi.toNat ++ ':' :: hexDigits 4 d.lo.toNat ++ [closeBrace]

/-- Every way R67 gives to write a DoubleWord as an operand, with capital letters (log 16): `Spells text d`. -/
inductive Spells : List Char → DoubleWord → Prop where
  /-- A decimal integer of any number of digits, "standing for `dw(n)`". -/
  | decimal (k n : Nat) (hk : 1 ≤ k) (hn : n < 10 ^ k) : Spells (writeDigits 10 k n) (dw n)
  /-- A negative decimal: "A literal written `−n` or `-n`" stands for `dw(−n)` (00_scope.md R12). -/
  | negative (minus : Char) (k n : Nat) (hm : minus = '-' ∨ minus = '−') (hk : 1 ≤ k) (hn : n < 10 ^ k) :
      Spells (minus :: writeDigits 10 k n) (dw (-n))
  /-- "a hexadecimal `0x` literal of at most 8 digits". -/
  | hex (k n : Nat) (hk : 1 ≤ k) (hk' : k ≤ 8) (hn : n < 16 ^ k) : Spells ('0' :: 'x' :: hexDigits k n) (dw n)
  /-- "a limb pair" of "two 16-bit hexadecimal limbs", high limb first. -/
  | limbs (j k : Nat) (hi lo : Limb) (hj : 1 ≤ j) (hj' : j ≤ 4) (hk : 1 ≤ k) (hk' : k ≤ 4)
      (hh : hi.toNat < 16 ^ j) (hl : lo.toNat < 16 ^ k) :
      Spells (openBrace :: hexDigits j hi.toNat ++ ':' :: hexDigits k lo.toNat ++ [closeBrace]) ⟨lo, hi⟩

/-- A request in mnemonic form with `0x` operands (R67). -/
def writeRequest : Instr → List Char
  | .mul a b => ['M', 'U', 'L', ' '] ++ hexLiteral a ++ [',', ' '] ++ hexLiteral b
  | .divs a b => ['D', 'I', 'V', 'S', ' '] ++ hexLiteral a ++ [',', ' '] ++ hexLiteral b

end Sys2Proof.Machine
end

