-- ==== Sys2Proof/Safety.lean ====
section
/-! DEFINITION. The terms in which claims about the machine are stated: the function of a request, the truncating
quotient, runs and what they show the caller, and the invariant. -/

namespace Sys2Proof.Machine

/-- `F(op, a, b)`: "Each operation's response is a function of its `op`, `a` and `b` alone" (00_scope.md R15);
`F(0, a, b)` is MUL's response and `F(1, a, b)` that of DIVS (10_state.md R30). -/
def F (op : BitVec 1) (a b : DoubleWord) : Response :=
  if op = 0#1 then .ok (multiply a b)
  else if isZero b then .dbz
  else .ok (divideSigned a b)

/-- `T(x, y) = s * (|x| div |y|)`, `s = −1` if exactly one of `x`, `y` is negative, else `+1` (41_divide.md R109). -/
def truncatedQuotient (x y : Int) : Int :=
  (if decide (x < 0) ^^ decide (y < 0) then -1 else 1) * ((x.natAbs / y.natAbs : Nat) : Int)

/-- What the unit still owes its caller: the answer to the operation it holds, or the response already formed. -/
def State.owed (s : State) : List Response :=
  match s.st with
  | .idle => []
  | .busy op a b => [F op a b]
  | .done rsp => [rsp]

/-- The request an event accepts, with the values captured. -/
def Event.request : Event → Option (BitVec 1 × DoubleWord × DoubleWord)
  | .accept op a b => some (op, a, b)
  | .reset => none
  | .noRequest => none
  | .latency => none
  | .compute _ _ _ => none
  | .stall => none
  | .deliver _ => none

/-- The answer an event makes the unit owe: that to the request it accepts. -/
def Event.answerDue (e : Event) : Option Response := e.request.map fun r => F r.1 r.2.1 r.2.2

/-- The response an event hands to the caller. -/
def Event.delivered : Event → Option Response
  | .deliver rsp => some rsp
  | .reset => none
  | .noRequest => none
  | .accept _ _ _ => none
  | .latency => none
  | .compute _ _ _ => none
  | .stall => none

/-- The events of `n` steps and the state after them; `none` when the caller breaks its duty on the way. -/
def trace : Nat → State → Option (List Event × State)
  | 0, s => some ([], s)
  | n + 1, s =>
    match step s with
    | .next t => (trace n t).map fun r => (s.event :: r.1, r.2)
    | .fault _ => none
    | .refused _ => none

/-- The invariant of the machine: latency is counted only while an operation waits in BUSY (R27, R166). -/
def State.Inv (s : State) : Prop :=
  match s.st with
  | .busy _ _ _ => True
  | .idle => s.wait = 0
  | .done _ => s.wait = 0

end Sys2Proof.Machine
end

