-- ==== Sys2Proof/Certificates/Slice0/Obligations.lean ====
section
/-! DEFINITION. The statements for the provers. Each docstring says which rule of the spec it formalises. -/

open Sys2Proof Sys2Proof.Machine

/-! Encoding of requests and responses. -/

/-- R60, R61, R70: decoding the word of any instruction gives the instruction back, with both operands whole. -/
def Obligations.DecodeOfEncodeIsInstr : Prop :=
  ∀ i : Instr, i.wf = true → decodeWord (encode i) = i ∧ decodeTableWord 65 (encode i).toNat = some i

/-- R65, R70: every 65-bit word is a request, and it is the word of the instruction it decodes to. -/
def Obligations.EncodeOfDecodeIsWord : Prop :=
  ∀ w : BitVec 65, encode (decodeWord w) = w ∧ decode 65 w.toNat = .ok (decodeWord w)

/-- R61, R70: the decoder selects by bit 64 and takes each limb from its own 16 bits. -/
def Obligations.DecoderReadsTheFields : Prop :=
  ∀ w : BitVec 65,
    decodeWord w = (if w.toNat / 2 ^ 64 = 0 then Instr.mul (decodeWord w).a (decodeWord w).b
      else Instr.divs (decodeWord w).a (decodeWord w).b) ∧
    (decodeWord w).a.hi.toNat = w.toNat / 2 ^ 48 % 2 ^ 16 ∧
    (decodeWord w).a.lo.toNat = w.toNat / 2 ^ 32 % 2 ^ 16 ∧
    (decodeWord w).b.hi.toNat = w.toNat / 2 ^ 16 % 2 ^ 16 ∧
    (decodeWord w).b.lo.toNat = w.toNat % 2 ^ 16

/-- R60: "So `REQ[63:32] = val(a)` and `REQ[31:0] = val(b)`". -/
def Obligations.WordValuesAreOperandValues : Prop :=
  ∀ i : Instr, (encode i).toNat = i.op.toNat * 2 ^ 64 + val i.a * 2 ^ 32 + val i.b

/-- R66 (how a longer number is answered is the model's, log 15): a number is refused, by name, exactly when it has
more than 65 bits. -/
def Obligations.LongerThanOneWordRefused : Prop :=
  ∀ nbits w : Nat, decode nbits w = .error .notOneReqWord ↔ 2 ^ 65 ≤ w % 2 ^ nbits

/-- R60, R61: words written out from the encoding (95_test_vectors.md S1, S3, and S4, which is V-D2) decode to what they
stand for. The third is given as 72 bits, whole bytes: that its upper bits are 0 and it decodes all the same is the
model's choice (log 15). -/
def Obligations.SampleWordsDecode : Prop :=
  decodeTableWord 65 0x00000047400000064 = some (.mul ⟨0x0474, 0⟩ ⟨0x0064, 0⟩) ∧
  decodeTableWord 65 0x1FFFFFFF900000002 = some (.divs ⟨0xFFF9, 0xFFFF⟩ ⟨2, 0⟩) ∧
  decodeTableWord 72 0x1FFFE42B0000003F7 = some (.divs ⟨0x42B0, 0xFFFE⟩ ⟨0x03F7, 0⟩)

/-- R10: the unsigned and signed value, `dw`, and the concatenation of the limbs; R12's example. -/
def Obligations.ValuesOfADoubleWord : Prop :=
  (∀ d : DoubleWord, val d = d.hi.toNat * 65536 + d.lo.toNat ∧ val d = (d.hi ++ d.lo).toNat ∧
    sval d = (if d.hi.getLsbD 15 then (val d : Int) - 2 ^ 32 else (val d : Int)) ∧ dw (val d) = d ∧ dw (sval d) = d) ∧
  (∀ v : Int, ((dw v).lo.toNat : Int) = v % 2 ^ 32 % 2 ^ 16 ∧ ((dw v).hi.toNat : Int) = v % 2 ^ 32 / 2 ^ 16 ∧
    (-2 ^ 31 ≤ v → v ≤ 2 ^ 31 - 1 → sval (dw v) = v)) ∧
  dw (-7) = ⟨0xFFF9, 0xFFFF⟩

/-- R67: the text of a request reads back as the request. The spacing of the text is the model's (log 16). -/
def Obligations.WrittenRequestReadsBack : Prop :=
  ∀ i : Instr, readRequest (writeRequest i) = some i

/-- R67, R12: the mnemonic forms and the call forms read as the same requests, with each operand in any of the ways R67
writes it: decimal, negative decimal, `0x` literal and limb pair. The spacing of the text is the model's (log 16). -/
def Obligations.CallFormsAreAliases : Prop :=
  ∀ (x y : List Char) (a b : DoubleWord), Spells x a → Spells y b →
    readRequest ("MUL ".toList ++ x ++ [',', ' '] ++ y) = some (.mul a b) ∧
    readRequest ("multiply(".toList ++ x ++ [',', ' '] ++ y ++ [')']) = some (.mul a b) ∧
    readRequest ("DIVS ".toList ++ x ++ [',', ' '] ++ y) = some (.divs a b) ∧
    readRequest ("divideSigned(".toList ++ x ++ [',', ' '] ++ y ++ [')']) = some (.divs a b)

/-- R67: only literals the spec allows are read: `0x` "of at most 8 digits", and limbs of 16 bits. -/
def Obligations.LiteralsReadAreWellFormed : Prop :=
  ∀ (cs rest : List Char) (l : Literal), readLiteral cs = some (l, rest) → l.wf = true

/-- R67, R12: a response as it is written, `→ r` with `r` in any of the ways R67 writes it, or `→ DBZ`, reads back. The
spacing of the text is the model's (log 16). -/
def Obligations.WrittenResponseReadsBack : Prop :=
  (∀ (x : List Char) (r : DoubleWord), Spells x r → readResponse (['→', ' '] ++ x) = some (.ok r)) ∧
  readResponse ['→', ' ', 'D', 'B', 'Z'] = some .dbz

/-- R60: a request word "is written as 17 hexadecimal digits, `op` first"; without their separators the digits spell
the word. -/
def Obligations.RequestDigitsSpellTheWord : Prop :=
  ∀ i : Instr, readDigits 16 0 0 ((requestDigits i).filter (· ≠ '_')) = ((encode i).toNat, 17, [])

/-- R62: a response "is written as 9 hexadecimal digits, `status` first", and "A DBZ response is written `1_xxxxxxxx`"; the
digits of a result, without their separator, spell its response word. -/
def Obligations.ResponseDigitsSpellTheWord : Prop :=
  (∀ r : DoubleWord, (responseDigits (.ok r)).take 2 = ['0', '_'] ∧
    readDigits 16 0 0 ((responseDigits (.ok r)).filter (· ≠ '_')) = ((rspWord 0#1 r).toNat, 9, [])) ∧
  responseDigits .dbz = ['1', '_', 'x', 'x', 'x', 'x', 'x', 'x', 'x', 'x']

/-! MUL. -/

/-- R83: the law of MUL, as the next state of the instruction: status OK with the product mod 2^32, read unsigned and
signed, and commutative. -/
def Obligations.MulAnswersProduct : Prop :=
  ∀ (a b : DoubleWord) (s : State), ∃ r : DoubleWord,
    exec (.mul a b) s = .next { s with st := .done (.ok r) } ∧
    val r = val a * val b % 2 ^ 32 ∧
    sval r ≡ sval a * sval b [ZMOD 2 ^ 32] ∧
    exec (.mul b a) s = exec (.mul a b) s

/-- R82: the product's decomposition, and the result limbs from three partial products, on every path. -/
def Obligations.MulLimbsFromPartialProducts : Prop :=
  ∀ a b : DoubleWord,
    val a * val b = a.hi.toNat * b.hi.toNat * 2 ^ 32
      + (a.hi.toNat * b.lo.toNat + a.lo.toNat * b.hi.toNat) * 2 ^ 16 + a.lo.toNat * b.lo.toNat ∧
    (multiply a b).lo.toNat = a.lo.toNat * b.lo.toNat % 65536 ∧
    (multiply a b).hi.toNat =
      (a.lo.toNat * b.lo.toNat / 65536 + a.hi.toNat * b.lo.toNat + a.lo.toNat * b.hi.toNat) % 65536

/-- R81: the fast path's bound and result, and that the general path gives the same. -/
def Obligations.FastPathIsNotObservable : Prop :=
  ∀ a b : DoubleWord,
    a.lo.toNat * b.lo.toNat ≤ 4294836225 ∧ 4294836225 < 2 ^ 32 ∧
    (a.hi = 0#16 → b.hi = 0#16 → val (multiply a b) = a.lo.toNat * b.lo.toNat) ∧
    multiply a b = multiplyGeneral a b

/-- R84: the inner sum's bound, that it is reached, and that computing it mod 2^16 gives the same kept bits. -/
def Obligations.MulInnerSumWidth : Prop :=
  (∀ a b : DoubleWord,
    a.lo.toNat * b.lo.toNat / 65536 + a.hi.toNat * b.lo.toNat + a.lo.toNat * b.hi.toNat ≤ 8589737984 ∧
    a.lo.toNat * b.lo.toNat < 2 ^ 32 ∧ a.hi.toNat * b.lo.toNat < 2 ^ 32 ∧ a.lo.toNat * b.hi.toNat < 2 ^ 32 ∧
    BitVec.ofNat 16 (a.lo.toNat * b.lo.toNat / 65536) + a.hi * b.lo + a.lo * b.hi = (multiply a b).hi) ∧
  (∃ a b : DoubleWord,
    a.lo.toNat * b.lo.toNat / 65536 + a.hi.toNat * b.lo.toNat + a.lo.toNat * b.hi.toNat = 8589737984) ∧
  8589737984 < 2 ^ 33

/-! DIVS: the sub-operations. -/

/-- R100: negation-with-borrow limb by limb, its law, and its corner cases. -/
def Obligations.NegIsTwosComplement : Prop :=
  (∀ d : DoubleWord,
    ((neg d).lo.toNat : Int) = (-(d.lo.toNat : Int)) % 65536 ∧
    ((neg d).hi.toNat : Int) = (-(if d.lo ≠ 0#16 then 1 else 0) - (d.hi.toNat : Int)) % 65536 ∧
    val (neg d) = (2 ^ 32 - val d) % 2 ^ 32) ∧
  neg (dw 0) = dw 0 ∧ neg (dw 0x80000000) = dw 0x80000000 ∧ neg (dw 0x00010000) = dw 0xFFFF0000 ∧
  neg (dw 1) = dw 0xFFFFFFFF

/-- R101: only a DoubleWord whose sign bit is 1 is negated, and the result is the magnitude of the signed value. -/
def Obligations.AbsIsMagnitude : Prop :=
  (∀ d : DoubleWord, val (absVal d) = (sval d).natAbs ∧
    (d.hi.getLsbD 15 = true → absVal d = neg d) ∧ (d.hi.getLsbD 15 = false → absVal d = d)) ∧
  val (absVal (dw 0x80000000)) = 2 ^ 31

/-- R102: doubleword-by-word division limb by limb, its law, and the widths of its intermediates. -/
def Obligations.DdwDividesByALimb : Prop :=
  (∀ (n : DoubleWord) (v : Limb), v ≠ 0#16 →
    (ddw n v).hi.toNat = n.hi.toNat / v.toNat ∧
    (ddw n v).lo.toNat = (n.hi.toNat % v.toNat * 65536 + n.lo.toNat) / v.toNat ∧
    val (ddw n v) = val n / v.toNat ∧
    n.hi.toNat % v.toNat * 65536 + n.lo.toNat ≤ 0xFFFEFFFF) ∧
  (∃ (n : DoubleWord) (v : Limb), v ≠ 0#16 ∧ n.hi.toNat % v.toNat * 65536 + n.lo.toNat = 0xFFFEFFFF)

/-- R103: the paired shift halves the value, and what the normalization loop leaves: the shifts counted by the bit
length of the divisor's high limb, and both values shifted by it. -/
def Obligations.NormalizeShiftsInLockstep : Prop :=
  (∀ d : DoubleWord, val (shr1 d) = val d / 2) ∧
  (∀ (a b a' b' : DoubleWord) (k : Nat), b.hi ≠ 0#16 → normalize a b = (a', b', k) →
    2 ^ (k - 1) ≤ b.hi.toNat ∧ b.hi.toNat < 2 ^ k ∧ 1 ≤ k ∧ k ≤ 16 ∧
    b'.hi = 0#16 ∧ val b' = val b / 2 ^ k ∧ 2 ^ 15 ≤ val b' ∧ val b' ≤ 65535 ∧
    val a' = val a / 2 ^ k ∧ a'.hi.toNat < 2 ^ 15)

/-- R107: on the HN path the trial quotient is the quotient or one more, it and its product fit their widths, and the
correction gives the quotient exactly. -/
def Obligations.TrialQuotientOvershootsByAtMostOne : Prop :=
  ∀ a b : DoubleWord, b.hi ≠ 0#16 →
    val a / val b ≤ trialQuotient a b ∧ trialQuotient a b ≤ val a / val b + 1 ∧ trialQuotient a b ≤ 65535 ∧
    (ddw (normalize a b).1 (normalize a b).2.1.lo).hi = 0#16 ∧
    correct (trialQuotient a b) a b = val a / val b ∧
    (val a ≤ 2 ^ 31 → val b ≤ 2 ^ 31 → trialQuotient a b * val b < 2 ^ 32)

/-- R105 (its law): magnitude division is floor division, on the H0 and on the HN path. -/
def Obligations.MagdivIsFloorDivision : Prop :=
  ∀ a b : DoubleWord, val b ≠ 0 → val (magdiv a b) = val a / val b ∧ (b.hi ≠ 0#16 → (magdiv a b).hi = 0#16)

/-! DIVS: the instruction. -/

/-- R109: for a nonzero divisor DIVS answers a next state with status OK and the truncated quotient mod 2^32; where the
quotient fits the signed range, which is every input but one, the signed result is the quotient. -/
def Obligations.DivsAnswersTruncatedQuotient : Prop :=
  ∀ (a b : DoubleWord) (s : State), val b ≠ 0 → ∃ q : DoubleWord,
    exec (.divs a b) s = .next { s with st := .done (.ok q) } ∧
    (val q : Int) = truncatedQuotient (sval a) (sval b) % 2 ^ 32 ∧
    ((-2 ^ 31 ≤ truncatedQuotient (sval a) (sval b) ∧ truncatedQuotient (sval a) (sval b) ≤ 2 ^ 31 - 1) ↔
      ¬ (a = dw 0x80000000 ∧ b = dw 0xFFFFFFFF)) ∧
    (¬ (a = dw 0x80000000 ∧ b = dw 0xFFFFFFFF) → sval q = truncatedQuotient (sval a) (sval b))

/-- R142 (and the cause and code of R140): a zero divisor gives the DBZ response whatever the dividend, and nothing else gives it; it is status 1
with no result value. -/
def Obligations.DivsByZeroAnswersDbz : Prop :=
  (∀ (a b : DoubleWord) (s : State), b.lo = 0#16 → b.hi = 0#16 →
    exec (.divs a b) s = .next { s with st := .done .dbz }) ∧
  (∀ (i : Instr) (s : State), exec i s = .next { s with st := .done .dbz } →
    ∃ a b : DoubleWord, i = .divs a b ∧ val b = 0) ∧
  (∀ s : State, exec (.divs (dw 0x80000000) (dw 0xFFFFFFFF)) s ≠ .next { s with st := .done .dbz }) ∧
  Response.dbz.status = 1#1 ∧ Response.dbz.result = none

/-- R108: the overflowing case gives 0x80000000 with status OK, and it is the only input whose signed result is not the
mathematical quotient. -/
def Obligations.OverflowingQuotientWraps : Prop :=
  (∀ s : State, exec (.divs (dw 0x80000000) (dw 0xFFFFFFFF)) s =
    .next { s with st := .done (.ok (dw 0x80000000)) }) ∧
  (∀ a b : DoubleWord, val b ≠ 0 →
    (sval (divideSigned a b) ≠ truncatedQuotient (sval a) (sval b) ↔ a = dw 0x80000000 ∧ b = dw 0xFFFFFFFF))

/-- R106, its corner cases. -/
def Obligations.DivsCornerCases : Prop :=
  (∀ b : DoubleWord, val b ≠ 0 → divideSigned (dw 0) b = dw 0) ∧
  (∀ a b : DoubleWord, val b ≠ 0 → (sval a).natAbs < (sval b).natAbs → divideSigned a b = dw 0) ∧
  (∀ a : DoubleWord, val a ≠ 0 → divideSigned a a = dw 1) ∧
  (∀ a : DoubleWord, divideSigned a (dw 1) = a) ∧
  (∀ a : DoubleWord, divideSigned a (dw 0xFFFFFFFF) = neg a) ∧
  (∀ a : DoubleWord, divideSigned a (dw 0x80000000) = if a = dw 0x80000000 then dw 1 else dw 0)

/-- R110: rounding toward zero. The sign of a nonzero quotient is negative exactly when the operands' signs differ (the
pinned case apart), its magnitude does not depend on the signs, and the implied remainder has the dividend's sign. -/
def Obligations.QuotientRoundsTowardZero : Prop :=
  (∀ a b : DoubleWord, val b ≠ 0 →
    val (absVal (divideSigned a b)) = (sval a).natAbs / (sval b).natAbs ∧
    (divideSigned a b ≠ dw 0 → ¬ (a = dw 0x80000000 ∧ b = dw 0xFFFFFFFF) →
      signBit (divideSigned a b) = (signBit a ^^ signBit b)) ∧
    (0 ≤ sval a → 0 ≤ sval a - sval (divideSigned a b) * sval b) ∧
    (sval a ≤ 0 → sval a - sval (divideSigned a b) * sval b ≤ 0)) ∧
  divideSigned (dw (-7)) (dw 2) = dw (-3) ∧
  divideSigned (dw (-114000)) (dw 1015) = dw (-112) ∧
  divideSigned (dw 114000) (dw (-1015)) = dw (-112) ∧
  divideSigned (dw (-114000)) (dw (-1015)) = dw 112

/-- R111: the remainder a caller computes as `a − MUL(DIVS(a, b), b)`, mod 2^32, is that of truncating division. -/
def Obligations.CallerComputesRemainder : Prop :=
  ∀ a b : DoubleWord, val b ≠ 0 →
    ((val a : Int) - val (multiply (divideSigned a b) b)) % 2 ^ 32 = Int.tmod (sval a) (sval b) % 2 ^ 32

/-- R112: DIVS undoes MUL where the signed product fits, run as two instructions; it need not where the product only
fits unsigned. -/
def Obligations.DivsUndoesMul : Prop :=
  (∀ (a b : DoubleWord) (s t : State), val b ≠ 0 → -2 ^ 31 ≤ sval a * sval b → sval a * sval b ≤ 2 ^ 31 - 1 →
    ∃ p : DoubleWord, exec (.mul a b) s = .next { s with st := .done (.ok p) } ∧
      exec (.divs p b) t = .next { t with st := .done (.ok a) }) ∧
  multiply (dw 2) (dw 0x7FFFFFFF) = dw 0xFFFFFFFE ∧ divideSigned (dw 0xFFFFFFFE) (dw 0x7FFFFFFF) = dw 0

/-- R45: "neither operation has a side effect beyond its response": everything but the transaction state is unchanged,
and the same request gives the same response in every state. -/
def Obligations.OperationsChangeOnlyTheResponse : Prop :=
  ∀ (i : Instr) (s t : State), exec i s = .next t →
    t.pins = s.pins ∧ t.coming = s.coming ∧ t.wait = s.wait ∧ t.draw = s.draw ∧
    ∃ rsp : Response, t.st = .done rsp ∧ ∀ s' : State, exec i s' = .next { s' with st := .done rsp }

/-- R65, R141: every request word runs: its instruction answers a response from every state, MUL always with status OK
and DIVS with DBZ only when its divisor is zero. -/
def Obligations.EveryRequestIsAnswered : Prop :=
  ∀ (w : BitVec 65) (s : State), ∃ rsp : Response,
    exec (decodeWord w) s = .next { s with st := .done rsp } ∧
    (rsp = .dbz ↔ w.toNat / 2 ^ 64 = 1 ∧ w.toNat % 2 ^ 32 = 0)

/-! The steps of the unit. -/

/-- R35 (the signals' and the model's own reset values are log 2, log 4 and log 6, and not stated): after reset the
unit is IDLE, ready, and presents no response. -/
def Obligations.AfterResetTheUnitIsReady : Prop :=
  State.reset.st = .idle ∧ State.reset.reqReady = true ∧ State.reset.rspValid = false

/-- R160: the reset input puts the unit in IDLE from any state. -/
def Obligations.ResetLeadsToIdleFromAnyState : Prop :=
  ∀ s : State, s.pins.rst = true → ∃ t : State, step s = .next t ∧ t.st = .idle ∧ t.reqReady = true ∧ t.rspValid = false

/-- R28: the output signals, and the response as the caller reads it from the pins. -/
def Obligations.OutputsFollowTheTransaction : Prop :=
  ∀ s : State, (s.reqReady = true ↔ s.st = .idle) ∧ (s.rspValid = true ↔ ∃ rsp, s.st = .done rsp) ∧
    (∀ rsp, s.st = .done rsp → s.rspPins.extractLsb' 32 1 = rsp.status ∧ readRspWord s.rspPins = rsp) ∧
    (∀ r : DoubleWord, s.st = .done (.ok r) → s.rspPins.extractLsb' 16 16 = r.hi ∧ s.rspPins.extractLsb' 0 16 = r.lo)

/-- R62: the response word of a result is status 0 above the result's value, that of DBZ has status 1 whatever its
result bits. -/
def Obligations.ResponseWordFormat : Prop :=
  (∀ (s : State) (r : DoubleWord), s.st = .done (.ok r) → s.rspPins.toNat = val r) ∧
  (∀ s : State, s.st = .done .dbz → s.rspPins.toNat / 2 ^ 32 = 1) ∧
  (∀ r : DoubleWord, readRspWord (rspWord 0#1 r) = .ok r ∧ readRspWord (rspWord 1#1 r) = .dbz)

/-- R29: in IDLE with `req_valid = 1` the accept step captures the request's operation and operands; with
`req_valid = 0` no request is accepted and the unit stays in IDLE. That no reset is on is log 8. -/
def Obligations.AcceptCapturesTheRequest : Prop :=
  ∀ s : State, s.pins.rst = false → s.st = .idle →
    ∃ t : State, step s = .next t ∧
      (s.pins.reqValid = true →
        s.event.request = some (s.pins.reqOp, ⟨s.pins.reqALo, s.pins.reqAHi⟩, ⟨s.pins.reqBLo, s.pins.reqBHi⟩) ∧
        t.st = .busy s.pins.reqOp ⟨s.pins.reqALo, s.pins.reqAHi⟩ ⟨s.pins.reqBLo, s.pins.reqBHi⟩) ∧
      (s.pins.reqValid = false → s.event.request = none ∧ t.st = .idle)

/-- R30, R70: a step runs the decoded instruction. In BUSY the step is exec of the instruction that the word of the
request held decodes to, on the state the model calls advanced. The rest is the model's choice: the compute step comes
when the drawn latency is over (log 4), no reset is on (log 8), the caller keeps its duty (log 7), the next input signals
arrive or the last stay (log 3), and the draws are numbered (log 6). -/
def Obligations.ComputeStepRunsTheDecodedRequest : Prop :=
  ∀ (s : State) (op : BitVec 1) (a b : DoubleWord), s.st = .busy op a b → s.wait = 0 → s.pins.rst = false →
    s.breaksHold = false →
    step s = exec (decodeWord (reqWord op a b)) s.advance ∧
    s.advance.st = s.st ∧ s.advance.wait = 0 ∧ s.advance.pins = s.coming.headD s.pins ∧
    s.advance.coming = s.coming.tail ∧ s.advance.draw = s.draw + 1

/-- The same for a word placed to run next (the model's reading of the host's interface, log 1). -/
def Obligations.PlacedWordRunsNext : Prop :=
  ∀ (s : State) (nbits w : Nat) (i : Instr), decodeTableWord nbits w = some i →
    step (s.withFetchWord nbits w) = exec i (s.withFetchWord nbits w).advance

/-- R30: the compute step forms `F` of the captured request, whatever the input signals carry at it. That it comes when
the drawn latency is over is the model's choice (log 4); that no reset is on is log 8, and the caller's duty log 7. -/
def Obligations.ComputeStepFormsTheResponse : Prop :=
  ∀ (s : State) (op : BitVec 1) (a b : DoubleWord), s.st = .busy op a b → s.wait = 0 → s.pins.rst = false →
    s.breaksHold = false → ∃ t : State, step s = .next t ∧ t.st = .done (F op a b)

/-- R166: while the latency lasts the unit stays in BUSY with the captured request unchanged. That a step counts it down
by one, in the model's own field `wait`, is the model's choice (log 4); that no reset is on is log 8, and the caller's
duty log 7. -/
def Obligations.LatencyKeepsTheCapturedRequest : Prop :=
  ∀ (s : State) (op : BitVec 1) (a b : DoubleWord), s.st = .busy op a b → s.wait ≠ 0 → s.pins.rst = false →
    s.breaksHold = false → ∃ t : State, step s = .next t ∧ t.st = .busy op a b ∧ t.wait + 1 = s.wait

/-- R31: in DONE, a caller that is ready receives the response and the unit is IDLE after it; R165: one that is not
leaves it in DONE, and no request is accepted meanwhile. That no reset is on is log 8, and the caller's duty log 7. -/
def Obligations.DeliverOrStall : Prop :=
  ∀ (s : State) (rsp : Response), s.st = .done rsp → s.pins.rst = false → s.breaksHold = false →
    ∃ t : State, step s = .next t ∧
      (s.pins.rspReady = true → s.event = .deliver rsp ∧ t.st = .idle) ∧
      (s.pins.rspReady = false → s.event.delivered = none ∧ s.event.request = none ∧ t.st = .done rsp)

/-- R144: the error is not sticky: once it is taken, the unit is in the very state it would be in after any other
response. -/
def Obligations.DbzIsNotSticky : Prop :=
  ∀ (s : State) (r : DoubleWord), s.pins.rspReady = true →
    step { s with st := .done .dbz } = step { s with st := .done (.ok r) }

/-- R164 and I6 (that a reset lifts the duty is the model's, log 7): a step is refused exactly when the caller changes
the operation or an operand of a request that waits, at `req_valid = 1`; lowering `req_valid` is not refused, and nothing
else stops the machine. There is no fault at all. -/
def Obligations.OnlyABrokenHoldIsRefused : Prop :=
  ∀ s : State,
    (step s = .refused .requestNotHeld ↔
      ∃ q qs, s.coming = q :: qs ∧ s.pins.rst = false ∧ s.pins.reqValid = true ∧ s.st ≠ .idle ∧ q.reqValid = true ∧
        ¬ (q.reqOp = s.pins.reqOp ∧ q.reqALo = s.pins.reqALo ∧ q.reqAHi = s.pins.reqAHi ∧
          q.reqBLo = s.pins.reqBLo ∧ q.reqBHi = s.pins.reqBHi)) ∧
    (step s = .refused .requestNotHeld ∨ ∃ t : State, step s = .next t)

/-- R164: a request that waits and is still presented after a step the model answers is unchanged. That no reset is on
is log 7. -/
def Obligations.WaitingRequestIsHeld : Prop :=
  ∀ s t : State, step s = .next t → s.pins.rst = false → s.pins.reqValid = true → s.reqReady = false →
    t.pins.reqValid = true →
    t.pins.reqOp = s.pins.reqOp ∧ t.pins.reqALo = s.pins.reqALo ∧
    t.pins.reqAHi = s.pins.reqAHi ∧ t.pins.reqBLo = s.pins.reqBLo ∧ t.pins.reqBHi = s.pins.reqBHi

/-! Runs of the unit. -/

/-- The invariant of the model's own countdown (the model's choice, log 4) holds after reset. -/
def Obligations.ResetMeetsTheInvariant : Prop := State.reset.Inv

/-- Every step keeps the invariant of the model's own countdown: a latency is left over only in BUSY. The countdown is the
model's choice (log 4) and no rule of the spec; that captured values exist in BUSY only is R27 and R35. -/
def Obligations.StepKeepsTheInvariant : Prop :=
  ∀ s t : State, s.Inv → step s = .next t → t.Inv

/-- R30, R166: BUSY reaches DONE with the response to the captured request, in as many steps as its latency and one
more, unless a reset intervenes. The latency is a free value (log 4): the statement holds whatever it is. -/
def Obligations.BusyReachesDone : Prop :=
  ∀ (s t : State) (op : BitVec 1) (a b : DoubleWord) (es : List Event), s.st = .busy op a b →
    trace (s.wait + 1) s = some (es, t) → Event.reset ∉ es → t.st = .done (F op a b) ∧ es.filterMap Event.delivered = []

/-- R29 to R31 and R166 together: a caller that presents a request and waits is answered with `F` of that request, and
the unit is IDLE again. It rests on two choices of the model: the signals stay when none is coming (log 3), and the
latency drawn is a finite number of steps (log 4), which is the spec's weak fairness. -/
def Obligations.WaitingCallerIsAnswered : Prop :=
  ∀ s : State, s.st = .idle → s.pins.rst = false → s.pins.reqValid = true → s.pins.rspReady = true → s.coming = [] →
    ∃ (n : Nat) (es : List Event) (t : State), trace n s = some (es, t) ∧ t.st = .idle ∧
      es.filterMap Event.delivered =
        [F s.pins.reqOp ⟨s.pins.reqALo, s.pins.reqAHi⟩ ⟨s.pins.reqBLo, s.pins.reqBHi⟩]

/-- R48: the unit holds at most one operation; over any run without a reset, what it owed and the answers to what it
accepts are, in order, what it delivers and what it still owes. -/
def Obligations.ResponsesInAcceptanceOrder : Prop :=
  ∀ (n : Nat) (s t : State) (es : List Event), trace n s = some (es, t) → Event.reset ∉ es →
    s.owed ++ es.filterMap Event.answerDue = es.filterMap Event.delivered ++ t.owed ∧ t.owed.length ≤ 1

/-- R161: over any run, resets among its steps or not, what is delivered is part of what is owed and accepted, in
order; a reset step delivers nothing and drops what is owed, and no later step delivers it. -/
def Obligations.ResetDiscardsTheOperation : Prop :=
  (∀ (n : Nat) (s t : State) (es : List Event), trace n s = some (es, t) →
    (es.filterMap Event.delivered).Sublist (s.owed ++ es.filterMap Event.answerDue)) ∧
  (∀ (n : Nat) (s t : State) (e : Event) (es : List Event), s.pins.rst = true → trace (n + 1) s = some (e :: es, t) →
    e.delivered = none ∧ (es.filterMap Event.delivered).Sublist (es.filterMap Event.answerDue)) ∧
  (∀ (n : Nat) (s t : State) (es : List Event), trace n s = some (es, t) → Event.reset ∉ es →
    s.owed.length + (es.filterMap Event.request).length = (es.filterMap Event.delivered).length + t.owed.length)

/-- R49: two runs from IDLE without a reset whose callers get the same requests accepted deliver the same responses, as
far as the shorter goes, whatever else differs: the latencies, the other signals, what ran before. -/
def Obligations.ResponsesDependOnRequestsAlone : Prop :=
  ∀ (m n : Nat) (s s' t t' : State) (es es' : List Event), s.st = .idle → s'.st = .idle →
    trace m s = some (es, t) → trace n s' = some (es', t') → Event.reset ∉ es → Event.reset ∉ es' →
    es.filterMap Event.request = es'.filterMap Event.request →
    (es.filterMap Event.delivered <+: es'.filterMap Event.delivered) ∨
    (es'.filterMap Event.delivered <+: es.filterMap Event.delivered)
end

