-- ==== Sys2Proof/Laws/Assembler.lean ====
section
/-! SUPPORT. Reading back digits as they are written. -/

namespace Sys2Proof.Machine

theorem digit_digitChar : ∀ n : Nat, n < 16 → digit (digitChar n) = some n := by decide

/-- One digit below the base is read. -/
theorem readDigits_cons {base n : Nat} {c : Char} (h : digit c = some n) (hn : n < base) (v k : Nat) (cs : List Char) :
    readDigits base v k (c :: cs) = readDigits base (v * base + n) (k + 1) cs := by
  simp [readDigits, h, hn]

/-- Where no digit stands the reading ends. -/
theorem readDigits_stop {cs : List Char} (h : ∀ c r, cs = c :: r → digit c = none) (base v k : Nat) :
    readDigits base v k cs = (v, k, cs) := by
  cases cs with
  | nil => rfl
  | cons c r => simp [readDigits, h c r rfl]

/-- `j` written digits of a base up to 16 are read as the low `j` digits of the number. -/
theorem readDigits_writeDigits {base : Nat} (h0 : 0 < base) (h16 : base ≤ 16) (j : Nat) :
    ∀ (n v k : Nat) (cs : List Char), readDigits base v k (writeDigits base j n ++ cs) =
      readDigits base (v * base ^ j + n % base ^ j) (k + j) cs := by
  induction j with
  | zero =>
    intro n v k cs
    simp [writeDigits, Nat.mod_one]
  | succ j ih =>
    intro n v k cs
    have hm : n % base < base := Nat.mod_lt _ h0
    rw [writeDigits, List.append_assoc, ih]
    simp only [List.cons_append, List.nil_append]
    rw [readDigits_cons (digit_digitChar _ (by omega)) hm]
    congr 1
    rw [Nat.pow_succ, Nat.mul_comm (base ^ j) base, Nat.mod_mul]
    ring

/-- `j` written hexadecimal digits are read as the low `j` digits of the number. -/
theorem readDigits_hexDigits (j n v k : Nat) (cs : List Char) :
    readDigits 16 v k (hexDigits j n ++ cs) = readDigits 16 (v * 16 ^ j + n % 16 ^ j) (k + j) cs :=
  readDigits_writeDigits (by norm_num) (by norm_num) j n v k cs

end Sys2Proof.Machine
end

