-- ==== Sys2Proof/Laws/Operands.lean ====
section
/-! SUPPORT. The readings of a DoubleWord: their ranges, and that the unsigned value determines the limbs. -/

namespace Sys2Proof.Machine

theorem limb_lt (x : Limb) : x.toNat < 65536 := x.isLt

theorem val_lt (d : DoubleWord) : val d < 2 ^ 32 := by
  have h := limb_lt d.lo
  have h' := limb_lt d.hi
  unfold val
  omega

theorem val_mod (d : DoubleWord) : val d % 65536 = d.lo.toNat := by
  have h := limb_lt d.lo
  unfold val
  omega

theorem val_div (d : DoubleWord) : val d / 65536 = d.hi.toNat := by
  have h := limb_lt d.lo
  unfold val
  omega

/-- Equal unsigned values are equal limb pairs. -/
theorem eq_of_val_eq {c d : DoubleWord} (h : val c = val d) : c = d := by
  have hl : c.lo = d.lo := BitVec.eq_of_toNat_eq (by rw [← val_mod c, ← val_mod d, h])
  have hh : c.hi = d.hi := BitVec.eq_of_toNat_eq (by rw [← val_div c, ← val_div d, h])
  cases c
  cases d
  simp_all

/-- The sign bit is set exactly from 2^31 on. -/
theorem signBit_eq (d : DoubleWord) : signBit d = decide (2 ^ 31 ≤ val d) := by
  have h := limb_lt d.lo
  have h' := limb_lt d.hi
  have e : signBit d = decide (2 ^ 15 ≤ d.hi.toNat) := by
    rw [signBit, ← BitVec.msb_eq_getLsbD_last (x := d.hi), BitVec.msb_eq_decide]
  rw [e]
  unfold val
  congr 1
  simp only [eq_iff_iff]
  omega

theorem isZero_iff (d : DoubleWord) : isZero d = true ↔ val d = 0 := by
  have h := limb_lt d.lo
  have hl : d.lo = 0#16 ↔ d.lo.toNat = 0 := by rw [← BitVec.toNat_inj]; rfl
  have hh : d.hi = 0#16 ↔ d.hi.toNat = 0 := by rw [← BitVec.toNat_inj]; rfl
  simp only [isZero, Bool.and_eq_true, beq_iff_eq, hl, hh, val]
  omega

/-- The signed value, by the half of the range the unsigned value lies in. -/
theorem sval_eq (d : DoubleWord) : sval d = if val d < 2 ^ 31 then (val d : Int) else val d - 2 ^ 32 := by
  rw [sval, signBit_eq]
  split <;> simp <;> omega

theorem sval_range (d : DoubleWord) : -2 ^ 31 ≤ sval d ∧ sval d < 2 ^ 31 := by
  have h := val_lt d
  rw [sval_eq]
  split <;> omega

theorem sval_emod (d : DoubleWord) : sval d % 2 ^ 32 = val d := by
  have h := val_lt d
  rw [sval_eq]
  split <;> omega

theorem signBit_iff_neg (d : DoubleWord) : signBit d = decide (sval d < 0) := by
  have h := val_lt d
  rw [signBit_eq, sval_eq]
  congr 1
  simp only [eq_iff_iff]
  split <;> omega

theorem val_eq_zero_iff (d : DoubleWord) : val d = 0 ↔ sval d = 0 := by
  have h := val_lt d
  rw [sval_eq]
  split <;> omega

/-- `dw` reads back as the integer mod 2^32. -/
theorem val_dw (v : Int) : (val (dw v) : Int) = v % 2 ^ 32 := by
  have hl : ((dw v).lo.toNat : Int) = v % 65536 := by
    simp only [dw, BitVec.toNat_ofInt]
    omega
  have hh : ((dw v).hi.toNat : Int) = v / 65536 % 65536 := by
    simp only [dw, BitVec.toNat_ofInt]
    omega
  simp only [val]
  omega

/-- A natural number below 2^32 is the unsigned value of its `dw` alone. -/
theorem eq_dw_iff (d : DoubleWord) {n : Nat} (h : n < 2 ^ 32) : d = dw n ↔ val d = n := by
  have hn := val_dw n
  constructor
  · rintro rfl
    omega
  · intro e
    exact eq_of_val_eq (by omega)

/-- A concatenation, as a number. -/
theorem toNat_append {m n : Nat} (x : BitVec m) (y : BitVec n) : (x ++ y).toNat = x.toNat * 2 ^ n + y.toNat := by
  rw [BitVec.toNat_append, Nat.shiftLeft_eq, Nat.mul_comm, Nat.two_pow_add_eq_or_of_lt y.isLt, Nat.mul_comm]

end Sys2Proof.Machine
end

