-- ==== Sys2Proof/Laws/State.lean ====
section
/-! SUPPORT. What each named operation does to each field of the state, one lemma per field per operation. -/

namespace Sys2Proof.Machine

@[simp] theorem State.advance_st (s : State) : (s.advance).st = s.st := rfl
@[simp] theorem State.advance_pins (s : State) : (s.advance).pins = s.coming.headD s.pins := rfl
@[simp] theorem State.advance_coming (s : State) : (s.advance).coming = s.coming.tail := rfl
@[simp] theorem State.advance_wait (s : State) : (s.advance).wait = s.wait := rfl
@[simp] theorem State.advance_draw (s : State) : (s.advance).draw = s.draw + 1 := rfl

@[simp] theorem State.respond_st (s : State) (rsp : Response) : (s.respond rsp).st = .done rsp := rfl
@[simp] theorem State.respond_pins (s : State) (rsp : Response) : (s.respond rsp).pins = s.pins := rfl
@[simp] theorem State.respond_coming (s : State) (rsp : Response) : (s.respond rsp).coming = s.coming := rfl
@[simp] theorem State.respond_wait (s : State) (rsp : Response) : (s.respond rsp).wait = s.wait := rfl
@[simp] theorem State.respond_draw (s : State) (rsp : Response) : (s.respond rsp).draw = s.draw := rfl

@[simp] theorem State.raiseDivisionByZero_st (s : State) : (s.raiseDivisionByZero).st = .done .dbz := rfl
@[simp] theorem State.raiseDivisionByZero_pins (s : State) : (s.raiseDivisionByZero).pins = s.pins := rfl
@[simp] theorem State.raiseDivisionByZero_coming (s : State) : (s.raiseDivisionByZero).coming = s.coming := rfl
@[simp] theorem State.raiseDivisionByZero_wait (s : State) : (s.raiseDivisionByZero).wait = s.wait := rfl
@[simp] theorem State.raiseDivisionByZero_draw (s : State) : (s.raiseDivisionByZero).draw = s.draw := rfl

@[simp] theorem State.accept_st (s : State) (op : BitVec 1) (a b : DoubleWord) : (s.accept op a b).st = .busy op a b := rfl
@[simp] theorem State.accept_pins (s : State) (op : BitVec 1) (a b : DoubleWord) : (s.accept op a b).pins = s.pins := rfl
@[simp] theorem State.accept_coming (s : State) (op : BitVec 1) (a b : DoubleWord) : (s.accept op a b).coming = s.coming := rfl
@[simp] theorem State.accept_wait (s : State) (op : BitVec 1) (a b : DoubleWord) : (s.accept op a b).wait = Config.latency s.draw op a b := rfl
@[simp] theorem State.accept_draw (s : State) (op : BitVec 1) (a b : DoubleWord) : (s.accept op a b).draw = s.draw := rfl

@[simp] theorem State.countDown_st (s : State) : (s.countDown).st = s.st := rfl
@[simp] theorem State.countDown_pins (s : State) : (s.countDown).pins = s.pins := rfl
@[simp] theorem State.countDown_coming (s : State) : (s.countDown).coming = s.coming := rfl
@[simp] theorem State.countDown_wait (s : State) : (s.countDown).wait = s.wait - 1 := rfl
@[simp] theorem State.countDown_draw (s : State) : (s.countDown).draw = s.draw := rfl

@[simp] theorem State.release_st (s : State) : (s.release).st = .idle := rfl
@[simp] theorem State.release_pins (s : State) : (s.release).pins = s.pins := rfl
@[simp] theorem State.release_coming (s : State) : (s.release).coming = s.coming := rfl
@[simp] theorem State.release_wait (s : State) : (s.release).wait = s.wait := rfl
@[simp] theorem State.release_draw (s : State) : (s.release).draw = s.draw := rfl

@[simp] theorem State.resetBlock_st (s : State) : (s.resetBlock).st = .idle := rfl
@[simp] theorem State.resetBlock_pins (s : State) : (s.resetBlock).pins = s.pins := rfl
@[simp] theorem State.resetBlock_coming (s : State) : (s.resetBlock).coming = s.coming := rfl
@[simp] theorem State.resetBlock_wait (s : State) : (s.resetBlock).wait = 0 := rfl
@[simp] theorem State.resetBlock_draw (s : State) : (s.resetBlock).draw = s.draw := rfl

@[simp] theorem State.withFetchWord_st (s : State) (nbits w : Nat) :
    (s.withFetchWord nbits w).st =
      .busy (reqOpField (BitVec.ofNat 65 (w % 2 ^ nbits))) (reqAField (BitVec.ofNat 65 (w % 2 ^ nbits)))
        (reqBField (BitVec.ofNat 65 (w % 2 ^ nbits))) := rfl
@[simp] theorem State.withFetchWord_pins (s : State) (nbits w : Nat) : (s.withFetchWord nbits w).pins = s.noReset := rfl
@[simp] theorem State.withFetchWord_coming (s : State) (nbits w : Nat) : (s.withFetchWord nbits w).coming = s.noReset :: s.coming := rfl
@[simp] theorem State.withFetchWord_wait (s : State) (nbits w : Nat) : (s.withFetchWord nbits w).wait = 0 := rfl
@[simp] theorem State.withFetchWord_draw (s : State) (nbits w : Nat) : (s.withFetchWord nbits w).draw = s.draw := rfl

@[simp] theorem State.reset_st : State.reset.st = .idle := rfl
@[simp] theorem State.reset_pins : State.reset.pins = Signals.quiet := rfl
@[simp] theorem State.reset_coming : State.reset.coming = [] := rfl
@[simp] theorem State.reset_wait : State.reset.wait = 0 := rfl
@[simp] theorem State.reset_draw : State.reset.draw = 0 := rfl

end Sys2Proof.Machine
end

