-- ==== Sys2Proof/Laws/Ops.lean ====
section
/-! SUPPORT. One lemma per shared operation of the meanings: what each instruction's meaning answers, and when the
caller's hold duty is broken. -/

namespace Sys2Proof.Machine

theorem execMul_eq (a b : DoubleWord) (s : State) : execMul a b s = .next (s.respond (.ok (multiply a b))) := rfl

theorem execDivs_zero {a b : DoubleWord} (h : val b = 0) (s : State) :
    execDivs a b s = .next s.raiseDivisionByZero := by
  rw [execDivs, if_pos ((isZero_iff b).2 h)]

theorem execDivs_nonzero {a b : DoubleWord} (h : val b ≠ 0) (s : State) :
    execDivs a b s = .next (s.respond (.ok (divideSigned a b))) := by
  rw [execDivs, if_neg (mt (isZero_iff b).1 h)]

/-- A response word, as a number: the status above the 32 result bits. -/
theorem rspWord_toNat (status : BitVec 1) (r : DoubleWord) :
    (rspWord status r).toNat = status.toNat * 2 ^ 32 + val r := by
  unfold rspWord val
  rw [toNat_append, toNat_append]
  ring

/-- No duty is broken when no signals are coming. -/
theorem breaksHold_of_none {s : State} (h : s.coming = []) : s.breaksHold = false := by
  simp [State.breaksHold, h]

/-- Signals that present no request change none: lowering `req_valid` keeps the duty. -/
theorem holds_of_lowered {p q : Signals} (h : q.reqValid = false) : p.holds q = true := by
  simp [Signals.holds, h]

/-- What signals that still present a request present: the same one. -/
theorem holds_of_valid {p q : Signals} (h : q.reqValid = true) :
    p.holds q = true ↔ q.reqOp = p.reqOp ∧ q.a = p.a ∧ q.b = p.b := by
  simp [Signals.holds, h, and_assoc]

/-- The hold duty binds only where a request waits; the unit in IDLE makes none wait. -/
theorem breaksHold_of_idle {s : State} (h : s.st = .idle) : s.breaksHold = false := by
  unfold State.breaksHold
  cases s.coming <;> simp [State.reqReady, h]

/-- No duty is broken when the next signals change no request. -/
theorem breaksHold_of_holds {s : State} {q : Signals} {qs : List Signals} (h : s.coming = q :: qs)
    (hq : s.pins.holds q = true) : s.breaksHold = false := by
  simp [State.breaksHold, h, hq]

/-- No duty is broken in a step of a reset. -/
theorem breaksHold_of_rst {s : State} (h : s.pins.rst = true) : s.breaksHold = false := by
  unfold State.breaksHold
  cases s.coming <;> simp [h]

end Sys2Proof.Machine
end

