-- ==== Sys2Proof/Laws/PerInstr.lean ====
section
/-! SUPPORT. Facts about every instruction as syntax, one lemma per constructor: its request word carries its operation
select at bit 64 and its limbs below (30_encoding.md R60, R61). -/

namespace Sys2Proof.Laws.WordFields

/-- The five fields of the instruction's request word are its own. -/
def Statement (i : Instr) : Prop :=
  reqOpField (encode i) = i.op ∧ reqAField (encode i) = i.a ∧ reqBField (encode i) = i.b

/-- The fields of a word put together from fields. -/
theorem reqWord_fields (op : BitVec 1) (a b : DoubleWord) :
    reqOpField (reqWord op a b) = op ∧ reqAField (reqWord op a b) = a ∧ reqBField (reqWord op a b) = b := by
  cases a with | mk alo ahi => cases b with | mk blo bhi =>
  refine ⟨?_, ?_, ?_⟩
  · simp only [reqOpField, reqWord]
    ext i hi
    simp
    grind
  · simp only [reqAField, reqWord, DoubleWord.mk.injEq]
    constructor <;> ext i hi <;> simp <;> grind
  · simp only [reqBField, reqWord, DoubleWord.mk.injEq]
    constructor <;> ext i hi <;> simp <;> grind

theorem mul (a b : DoubleWord) : Statement (.mul a b) := reqWord_fields 0#1 a b

theorem divs (a b : DoubleWord) : Statement (.divs a b) := reqWord_fields 1#1 a b

end Sys2Proof.Laws.WordFields
end

