-- ==== Sys2Proof/Laws/Step.lean ====
section
/-! SUPPORT. Everything a step can do, said once: the inversion of the event and of the step. -/

namespace Sys2Proof.Machine

/-- Either instruction answers, from any state, by forming its response. -/
theorem exec_eq (i : Instr) (s : State) : exec i s = .next (s.respond (F i.op i.a i.b)) := by
  cases i with
  | mul a b => rfl
  | divs a b =>
    show execDivs a b s = _
    unfold execDivs F
    cases h : isZero b <;> simp [Instr.op, Instr.a, Instr.b, h, State.raiseDivisionByZero]

@[simp] theorem decodeOp_op (op : BitVec 1) (a b : DoubleWord) : (decodeOp op a b).op = op := by
  unfold decodeOp
  split
  · next h => rw [h]; rfl
  · next h =>
    have : op = 1#1 := by have := op.isLt; bv_omega
    rw [this]; rfl

@[simp] theorem decodeOp_a (op : BitVec 1) (a b : DoubleWord) : (decodeOp op a b).a = a := by
  unfold decodeOp
  split <;> rfl

@[simp] theorem decodeOp_b (op : BitVec 1) (a b : DoubleWord) : (decodeOp op a b).b = b := by
  unfold decodeOp
  split <;> rfl

theorem exec_decodeOp (op : BitVec 1) (a b : DoubleWord) (s : State) :
    exec (decodeOp op a b) s = .next (s.respond (F op a b)) := by
  rw [exec_eq, decodeOp_op, decodeOp_a, decodeOp_b]

/-- The state after a step, from its event. -/
def State.after (s : State) : State :=
  match s.event with
  | .reset => s.advance.resetBlock
  | .noRequest => s.advance
  | .accept op a b => s.advance.accept op a b
  | .latency => s.advance.countDown
  | .compute op a b => s.advance.respond (F op a b)
  | .stall => s.advance
  | .deliver _ => s.advance.release

/-- A step answers a next state unless the caller breaks its duty, and then it is refused. -/
theorem step_eq (s : State) : step s = if s.breaksHold then .refused .requestNotHeld else .next s.after := by
  unfold step State.after
  split
  · rfl
  · cases s.event <;> simp [exec_decodeOp]

/-- A step that answers is the step of its event. -/
theorem step_next {s t : State} (h : step s = .next t) : t = s.after := by
  rw [step_eq] at h
  split at h
  · cases h
  · cases h; rfl

/-- What each event says of the state it happens in. -/
theorem event_cases (s : State) :
    (s.event = .reset ∧ s.pins.rst = true) ∨
    (s.event = .noRequest ∧ s.pins.rst = false ∧ s.st = .idle ∧ s.pins.reqValid = false) ∨
    (s.event = .accept s.pins.reqOp s.pins.a s.pins.b ∧ s.pins.rst = false ∧ s.st = .idle ∧ s.pins.reqValid = true) ∨
    (∃ op a b, s.event = .latency ∧ s.pins.rst = false ∧ s.st = .busy op a b ∧ s.wait ≠ 0) ∨
    (∃ op a b, s.event = .compute op a b ∧ s.pins.rst = false ∧ s.st = .busy op a b ∧ s.wait = 0) ∨
    (∃ rsp, s.event = .stall ∧ s.pins.rst = false ∧ s.st = .done rsp ∧ s.pins.rspReady = false) ∨
    (∃ rsp, s.event = .deliver rsp ∧ s.pins.rst = false ∧ s.st = .done rsp ∧ s.pins.rspReady = true) := by
  unfold State.event
  cases hr : s.pins.rst
  · cases hs : s.st with
    | idle => cases hv : s.pins.reqValid <;> simp
    | busy op a b => by_cases hw : s.wait = 0 <;> simp [hw]
    | done rsp => cases hv : s.pins.rspReady <;> simp
  · simp

end Sys2Proof.Machine
end

