-- ==== Sys2Proof/Laws/Runs.lean ====
section
/-! SUPPORT. Runs taken apart step by step, and what each event accepts and delivers. -/

namespace Sys2Proof.Machine

theorem trace_zero (s : State) : trace 0 s = some ([], s) := rfl

/-- A run of one step more: its first event is that of the first state, and the rest runs from the state after it. -/
theorem trace_succ {n : Nat} {s t : State} {es : List Event} (h : trace (n + 1) s = some (es, t)) :
    s.breaksHold = false ∧ ∃ es', es = s.event :: es' ∧ trace n s.after = some (es', t) := by
  unfold trace at h
  rw [step_eq] at h
  cases hb : s.breaksHold
  · simp only [hb, Bool.false_eq_true, if_false, Option.map_eq_some_iff, Prod.mk.injEq] at h
    obtain ⟨⟨es', t'⟩, h', rfl, rfl⟩ := h
    exact ⟨rfl, es', rfl, h'⟩
  · simp [hb] at h

/-- A run of one step more, put together. -/
theorem trace_cons {n : Nat} {s t : State} {es : List Event} (hb : s.breaksHold = false)
    (h : trace n s.after = some (es, t)) : trace (n + 1) s = some (s.event :: es, t) := by
  unfold trace
  simp [step_eq, hb, h]

@[simp] theorem delivered_reset : Event.reset.delivered = none := rfl
@[simp] theorem delivered_noRequest : Event.noRequest.delivered = none := rfl
@[simp] theorem delivered_accept (op : BitVec 1) (a b : DoubleWord) : (Event.accept op a b).delivered = none := rfl
@[simp] theorem delivered_latency : Event.latency.delivered = none := rfl
@[simp] theorem delivered_compute (op : BitVec 1) (a b : DoubleWord) : (Event.compute op a b).delivered = none := rfl
@[simp] theorem delivered_stall : Event.stall.delivered = none := rfl
@[simp] theorem delivered_deliver (rsp : Response) : (Event.deliver rsp).delivered = some rsp := rfl

@[simp] theorem answerDue_reset : Event.reset.answerDue = none := rfl
@[simp] theorem answerDue_noRequest : Event.noRequest.answerDue = none := rfl
@[simp] theorem answerDue_accept (op : BitVec 1) (a b : DoubleWord) :
    (Event.accept op a b).answerDue = some (F op a b) := rfl
@[simp] theorem answerDue_latency : Event.latency.answerDue = none := rfl
@[simp] theorem answerDue_compute (op : BitVec 1) (a b : DoubleWord) : (Event.compute op a b).answerDue = none := rfl
@[simp] theorem answerDue_stall : Event.stall.answerDue = none := rfl
@[simp] theorem answerDue_deliver (rsp : Response) : (Event.deliver rsp).answerDue = none := rfl

theorem owed_idle {s : State} (h : s.st = .idle) : s.owed = [] := by simp [State.owed, h]

theorem owed_busy {s : State} {op : BitVec 1} {a b : DoubleWord} (h : s.st = .busy op a b) :
    s.owed = [F op a b] := by simp [State.owed, h]

theorem owed_done {s : State} {rsp : Response} (h : s.st = .done rsp) : s.owed = [rsp] := by simp [State.owed, h]

end Sys2Proof.Machine
end

