-- ==== Sys2Proof/Tests/Slice0.lean ====
section
/-! SUPPORT. Tests of the model (vectors of 95_test_vectors.md, words and values taken from there), and for every
statement with hypotheses a named witness that meets them. -/

namespace Sys2Proof.Tests

open Sys2Proof Sys2Proof.Machine

/-- A state with the given transaction state and input signals, nothing coming and no latency left. -/
def at_ (st : Transaction) (pins : Signals) : State := { st := st, pins := pins, coming := [], wait := 0, draw := 0 }

/-- A caller that presents the request `multiply(1140, 100)` and is ready for its response. -/
def asks : Signals := { Signals.quiet with reqValid := true, reqALo := 0x474#16, reqBLo := 0x64#16, rspReady := true }

/-- The caller of `asks` with the reset input on. -/
def resets : Signals := { asks with rst := true }

/-! Well-formedness and decoding. -/

theorem test_wf_every_instr : (Instr.mul ⟨0xFFFF, 0xFFFF⟩ ⟨0, 0⟩).wf = true := by decide
theorem test_wf_refuses_66_bits : isReqWord 0x20000000000000000 = false := by decide
theorem test_decode_refuses_66_bits : decodeTableWord 72 0x20000000000000000 = none := by decide
theorem test_wf_refuses_long_hex : (Literal.hex 0x100000000).wf = false := by decide
theorem test_wf_refuses_wide_limb : (Literal.limbs 0x10000 0).wf = false := by decide

/-- MUL: op 0, a_hi 0x1234, a_lo 0x5678, b_hi 0x9ABC, b_lo 0xDEF0 (V-M14), bit by bit. -/
theorem test_decode_mul :
    decodeTableWord 65 0b00001001000110100010101100111100010011010101111001101111011110000
      = some (.mul ⟨0x5678, 0x1234⟩ ⟨0xDEF0, 0x9ABC⟩) := by decide

/-- DIVS: op 1, a_hi 0xFFFD, a_lo 0xFFFF, b_hi 0x0001, b_lo 0x0001 (V-D28), bit by bit. -/
theorem test_decode_divs :
    decodeTableWord 65 0b11111111111111101111111111111111100000000000000010000000000000001
      = some (.divs ⟨0xFFFF, 0xFFFD⟩ ⟨0x0001, 0x0001⟩) := by decide

/-- V-M14 as its 17 digits are written. -/
theorem test_encode_digits :
    requestDigits (.mul ⟨0x5678, 0x1234⟩ ⟨0xDEF0, 0x9ABC⟩)
      = ['0', '_', '1', '2', '3', '4', '5', '6', '7', '8', '_', '9', 'A', 'B', 'C', 'D', 'E', 'F', '0'] := by decide

/-- S1's response, and that of V-D11. -/
theorem test_response_digits :
    responseDigits (.ok ⟨0xBD50, 0x0001⟩) = ['0', '_', '0', '0', '0', '1', 'B', 'D', '5', '0'] ∧
    responseDigits .dbz = ['1', '_', 'x', 'x', 'x', 'x', 'x', 'x', 'x', 'x'] := by decide

/-- `DIVS -7, 2` (S3). -/
theorem test_read_decimal_operands :
    readRequest ['D', 'I', 'V', 'S', ' ', '-', '7', ',', ' ', '2'] = some (.divs ⟨0xFFF9, 0xFFFF⟩ ⟨2, 0⟩) := by decide

/-! The instructions, each by one step on the unit that holds the request. -/

/-- V-M14, the general path. -/
theorem test_mul_general_path :
    step (State.reset.withFetchWord 65 0x0123456789ABCDEF0) =
      .next ((State.reset.withFetchWord 65 0x0123456789ABCDEF0).advance.respond (.ok ⟨0x2080, 0x242D⟩)) := by rfl

/-- V-M4, the largest product of the fast path. -/
theorem test_mul_fast_path : multiply ⟨0xFFFF, 0⟩ ⟨0xFFFF, 0⟩ = ⟨0x0001, 0xFFFE⟩ := by decide

/-- V-D30 and V-N3: the trial quotient 6507 overshoots and is corrected to 6506 by the whole divisor. -/
theorem test_divs_corrects_overshoot :
    trialQuotient ⟨0x68C8, 0x1C4C⟩ ⟨0x1D03, 0x0001⟩ = 6507 ∧
    step (State.reset.withFetchWord 65 0x11C4C68C800011D03) =
      .next ((State.reset.withFetchWord 65 0x11C4C68C800011D03).advance.respond (.ok ⟨0x196A, 0⟩)) := ⟨rfl, rfl⟩

/-- V-D12: a zero divisor. -/
theorem test_divs_by_zero :
    step (State.reset.withFetchWord 65 0x11234567800000000) =
      .next ((State.reset.withFetchWord 65 0x11234567800000000).advance.respond .dbz) := by rfl

/-! The transaction vectors V-T2, V-T4 and V-T5. -/

theorem test_accept_captures :
    (at_ .idle asks).after.st = .busy 0#1 ⟨0x474, 0⟩ ⟨0x64, 0⟩ ∧ (at_ .idle asks).after.reqReady = false := by decide

theorem test_deliver_returns_to_idle :
    (at_ (.done (.ok ⟨0xBD50, 1⟩)) asks).event = .deliver (.ok ⟨0xBD50, 1⟩) ∧
    (at_ (.done (.ok ⟨0xBD50, 1⟩)) asks).after.st = .idle := by decide

theorem test_stall_accepts_no_request :
    (at_ (.done (.ok ⟨1, 0⟩)) { asks with rspReady := false }).after.st = .done (.ok ⟨1, 0⟩) := by decide

/-! Witnesses: for each statement, a state and operands that meet its hypotheses together. -/

theorem witness_DecodeOfEncodeIsInstr : (Instr.divs ⟨1, 0x8000⟩ ⟨0xFFFF, 0xFFFF⟩).wf = true := by decide

theorem witness_ValuesOfADoubleWord :
    (-2 ^ 31 ≤ (-2 ^ 31 : Int) ∧ (-2 ^ 31 : Int) ≤ 2 ^ 31 - 1) ∧
    (-2 ^ 31 ≤ (2 ^ 31 - 1 : Int) ∧ (2 ^ 31 - 1 : Int) ≤ 2 ^ 31 - 1) := by decide

theorem witness_LiteralsReadAreWellFormed :
    readLiteral ['0', 'x', 'F', 'F', 'F', 'F', 'F', 'F', 'F', 'F'] = some (.hex 0xFFFFFFFF, []) ∧
    readLiteral ['-', '7', ','] = some (.decimal (-7), [',']) ∧
    readLiteral ([openBrace] ++ ['F', 'F', 'F', 'F', ':', '1'] ++ [closeBrace]) = some (.limbs 0xFFFF 1, []) := by decide

/-- Every way to write an operand, at its largest: `10`, `−2147483648`, `0xFFFFFFFF`, and a limb pair. -/
theorem witness_CallFormsAreAliases :
    Spells ['1', '0'] (dw 10) ∧
    Spells ['−', '2', '1', '4', '7', '4', '8', '3', '6', '4', '8'] (dw (-2147483648)) ∧
    Spells ['0', 'x', 'F', 'F', 'F', 'F', 'F', 'F', 'F', 'F'] (dw 0xFFFFFFFF) ∧
    Spells ([openBrace] ++ ['F', 'F', 'F', 'F', ':', '1'] ++ [closeBrace]) ⟨1, 0xFFFF⟩ :=
  ⟨.decimal 2 10 (by decide) (by decide), .negative '−' 10 2147483648 (.inr rfl) (by decide) (by decide),
   .hex 8 0xFFFFFFFF (by decide) (by decide) (by decide),
   .limbs 4 1 0xFFFF 1 (by decide) (by decide) (by decide) (by decide) (by decide) (by decide)⟩

theorem witness_WrittenResponseReadsBack : Spells ['-', '7'] (dw (-7)) :=
  .negative '-' 1 7 (.inl rfl) (by decide) (by decide)

theorem witness_FastPathIsNotObservable :
    (⟨0xFFFF, 0⟩ : DoubleWord).hi = 0#16 ∧ val (multiply ⟨0xFFFF, 0⟩ ⟨0xFFFF, 0⟩) = 4294836225 := by decide

theorem witness_AbsIsMagnitude :
    (dw 0x80000000).hi.getLsbD 15 = true ∧ (dw 0x7FFFFFFF).hi.getLsbD 15 = false := by decide

theorem witness_DdwDividesByALimb : (0xFFFF#16 : Limb) ≠ 0#16 ∧ (1#16 : Limb) ≠ 0#16 := by decide

/-- V-D27, one shift, and V-D17, sixteen. -/
theorem witness_NormalizeShiftsInLockstep :
    ((⟨1, 1⟩ : DoubleWord).hi ≠ 0#16 ∧ normalize ⟨1, 2⟩ ⟨1, 1⟩ = (⟨0, 1⟩, ⟨0x8000, 0⟩, 1)) ∧
    ((⟨0, 0x8000⟩ : DoubleWord).hi ≠ 0#16 ∧
      normalize ⟨0, 0x8000⟩ ⟨0, 0x8000⟩ = (⟨0x8000, 0⟩, ⟨0x8000, 0⟩, 16)) :=
  ⟨⟨by decide, rfl⟩, ⟨by decide, rfl⟩⟩

/-- An overshoot (V-D27), and magnitudes at the bound 2^31 (V-D17). -/
theorem witness_TrialQuotientOvershootsByAtMostOne :
    ((⟨1, 1⟩ : DoubleWord).hi ≠ 0#16 ∧ trialQuotient ⟨1, 2⟩ ⟨1, 1⟩ = val ⟨1, 2⟩ / val ⟨1, 1⟩ + 1) ∧
    ((⟨0, 0x8000⟩ : DoubleWord).hi ≠ 0#16 ∧ val ⟨0, 0x8000⟩ ≤ 2 ^ 31) :=
  ⟨⟨by decide, rfl⟩, by decide⟩

theorem witness_MagdivIsFloorDivision :
    val ⟨0x03F7, 0⟩ ≠ 0 ∧ (val ⟨0, 0x8000⟩ ≠ 0 ∧ (⟨0, 0x8000⟩ : DoubleWord).hi ≠ 0#16) := by decide

/-- An ordinary input, the pinned one, and the quotients at both ends of the signed range. -/
theorem witness_DivsAnswersTruncatedQuotient :
    (val (dw 2) ≠ 0 ∧ ¬ (dw (-7) = dw 0x80000000 ∧ dw 2 = dw 0xFFFFFFFF)) ∧
    (val (dw 0xFFFFFFFF) ≠ 0 ∧ truncatedQuotient (sval (dw 0x80000000)) (sval (dw 0xFFFFFFFF)) = 2 ^ 31) ∧
    (val (dw 1) ≠ 0 ∧ ¬ (dw 0x80000000 = dw 0x80000000 ∧ dw 1 = dw 0xFFFFFFFF) ∧
      truncatedQuotient (sval (dw 0x80000000)) (sval (dw 1)) = -2 ^ 31) ∧
    (¬ (dw 0x7FFFFFFF = dw 0x80000000 ∧ dw 1 = dw 0xFFFFFFFF) ∧
      truncatedQuotient (sval (dw 0x7FFFFFFF)) (sval (dw 1)) = 2 ^ 31 - 1) := by decide

theorem witness_DivsByZeroAnswersDbz :
    (⟨0, 0⟩ : DoubleWord).lo = 0#16 ∧ (⟨0, 0⟩ : DoubleWord).hi = 0#16 ∧
    exec (.divs ⟨0, 0⟩ ⟨0, 0⟩) State.reset = .next { State.reset with st := .done .dbz } := ⟨rfl, rfl, rfl⟩

theorem witness_OverflowingQuotientWraps :
    val (dw 0xFFFFFFFF) ≠ 0 ∧
    sval (divideSigned (dw 0x80000000) (dw 0xFFFFFFFF))
      ≠ truncatedQuotient (sval (dw 0x80000000)) (sval (dw 0xFFFFFFFF)) := by decide

theorem witness_DivsCornerCases :
    (val (dw 0x80000000) ≠ 0 ∧ (sval (dw 0x7FFFFFFF)).natAbs < (sval (dw 0x80000000)).natAbs) := by decide

theorem witness_QuotientRoundsTowardZero :
    val (dw (-2)) ≠ 0 ∧ divideSigned (dw 7) (dw (-2)) ≠ dw 0 ∧
    ¬ (dw 7 = dw 0x80000000 ∧ dw (-2) = dw 0xFFFFFFFF) ∧ 0 ≤ sval (dw 7) ∧ sval (dw (-7)) ≤ 0 := by decide

theorem witness_CallerComputesRemainder : val (dw 10) ≠ 0 := by decide

/-- Signed products at both ends of the range. -/
theorem witness_DivsUndoesMul :
    (val (dw 1) ≠ 0 ∧ -2 ^ 31 ≤ sval (dw 0x80000000) * sval (dw 1) ∧ sval (dw 0x80000000) * sval (dw 1) ≤ 2 ^ 31 - 1) ∧
    (val (dw (-1)) ≠ 0 ∧ -2 ^ 31 ≤ sval (dw (-2147483647)) * sval (dw (-1)) ∧
      sval (dw (-2147483647)) * sval (dw (-1)) = 2 ^ 31 - 1) := by decide

theorem witness_OperationsChangeOnlyTheResponse :
    exec (.mul ⟨2, 0⟩ ⟨3, 0⟩) State.reset = .next { State.reset with st := .done (.ok ⟨6, 0⟩) } := by rfl

theorem witness_EveryRequestIsAnswered :
    (0x11234567800000000#65).toNat / 2 ^ 64 = 1 ∧ (0x11234567800000000#65).toNat % 2 ^ 32 = 0 := by decide

theorem witness_ResetLeadsToIdleFromAnyState : (at_ (.busy 1#1 ⟨1, 0⟩ ⟨0, 0⟩) resets).pins.rst = true := by decide

theorem witness_OutputsFollowTheTransaction :
    (at_ (.done (.ok ⟨1, 2⟩)) asks).st = .done (.ok ⟨1, 2⟩) ∧ (at_ (.done .dbz) asks).st = .done .dbz := by decide

theorem witness_ResponseWordFormat :
    (at_ (.done (.ok ⟨0xFFFF, 0xFFFF⟩)) asks).st = .done (.ok ⟨0xFFFF, 0xFFFF⟩) ∧
    (at_ (.done .dbz) asks).st = .done .dbz := by decide

theorem witness_AcceptCapturesTheRequest :
    ((at_ .idle asks).pins.rst = false ∧ (at_ .idle asks).st = .idle ∧ (at_ .idle asks).pins.reqValid = true) ∧
    ((at_ .idle Signals.quiet).pins.rst = false ∧ (at_ .idle Signals.quiet).st = .idle ∧
      (at_ .idle Signals.quiet).pins.reqValid = false) := by decide

theorem witness_ComputeStepRunsTheDecodedRequest :
    (at_ (.busy 1#1 ⟨7, 0⟩ ⟨2, 0⟩) asks).st = .busy 1#1 ⟨7, 0⟩ ⟨2, 0⟩ ∧
    (at_ (.busy 1#1 ⟨7, 0⟩ ⟨2, 0⟩) asks).wait = 0 ∧ (at_ (.busy 1#1 ⟨7, 0⟩ ⟨2, 0⟩) asks).pins.rst = false ∧
    (at_ (.busy 1#1 ⟨7, 0⟩ ⟨2, 0⟩) asks).breaksHold = false := by decide

theorem witness_PlacedWordRunsNext : decodeTableWord 65 0x10000000700000002 = some (.divs ⟨7, 0⟩ ⟨2, 0⟩) := by decide

/-- V-T8: the request signals have changed since the request held was captured. -/
theorem witness_ComputeStepFormsTheResponse :
    (at_ (.busy 0#1 ⟨0x474, 0⟩ ⟨0x64, 0⟩) Signals.quiet).breaksHold = false ∧
    (at_ (.busy 0#1 ⟨0x474, 0⟩ ⟨0x64, 0⟩) Signals.quiet).event = .compute 0#1 ⟨0x474, 0⟩ ⟨0x64, 0⟩ := by decide

/-- A state whose operation waits for one more step. -/
def waits : State := { at_ (.busy 0#1 ⟨3, 0⟩ ⟨4, 0⟩) asks with wait := 1 }

theorem witness_LatencyKeepsTheCapturedRequest :
    waits.st = .busy 0#1 ⟨3, 0⟩ ⟨4, 0⟩ ∧ waits.wait ≠ 0 ∧ waits.pins.rst = false ∧ waits.breaksHold = false := by decide

theorem witness_DeliverOrStall :
    ((at_ (.done .dbz) asks).breaksHold = false ∧ (at_ (.done .dbz) asks).pins.rst = false ∧
      (at_ (.done .dbz) asks).pins.rspReady = true) ∧
    ((at_ (.done .dbz) Signals.quiet).breaksHold = false ∧ (at_ (.done .dbz) Signals.quiet).pins.rst = false ∧
      (at_ (.done .dbz) Signals.quiet).pins.rspReady = false) := by decide

theorem witness_DbzIsNotSticky : (at_ (.done .dbz) asks).pins.rspReady = true := by decide

/-- A caller that changes a request that waits, one that only lowers `req_valid` while it waits, and one that changes
its request as it is accepted. -/
theorem witness_OnlyABrokenHoldIsRefused :
    step { waits with coming := [{ asks with reqOp := 1#1 }] } = .refused .requestNotHeld ∧
    (∃ t, step { waits with coming := [{ asks with reqValid := false }] } = .next t) ∧
    ∃ t, step { at_ .idle asks with coming := [{ asks with reqOp := 1#1 }] } = .next t :=
  ⟨rfl, ⟨_, rfl⟩, ⟨_, rfl⟩⟩

theorem witness_WaitingRequestIsHeld :
    step { waits with coming := [asks] } = .next { waits with coming := [], wait := 0, draw := 1 } ∧
    waits.pins.rst = false ∧ waits.pins.reqValid = true ∧ waits.reqReady = false ∧ asks.reqValid = true :=
  ⟨rfl, by decide⟩

theorem witness_StepKeepsTheInvariant :
    State.Inv waits ∧ step waits = .next { waits with wait := 0, draw := 1 } := ⟨trivial, rfl⟩

theorem witness_BusyReachesDone :
    waits.st = .busy 0#1 ⟨3, 0⟩ ⟨4, 0⟩ ∧
    trace (waits.wait + 1) waits =
      some ([.latency, .compute 0#1 ⟨3, 0⟩ ⟨4, 0⟩], { at_ (.done (.ok ⟨12, 0⟩)) asks with draw := 2 }) ∧
    Event.reset ∉ [Event.latency, .compute 0#1 ⟨3, 0⟩ ⟨4, 0⟩] := ⟨rfl, rfl, by decide⟩

theorem witness_WaitingCallerIsAnswered :
    (at_ .idle asks).st = .idle ∧ (at_ .idle asks).pins.rst = false ∧ (at_ .idle asks).pins.reqValid = true ∧
    (at_ .idle asks).pins.rspReady = true ∧ (at_ .idle asks).coming = [] := by decide

/-- A run that delivers one response and accepts the next request. -/
theorem witness_ResponsesInAcceptanceOrder :
    (∃ t, trace 2 (at_ (.done .dbz) asks) =
      some ([.deliver .dbz, .accept 0#1 ⟨0x474, 0⟩ ⟨0x64, 0⟩], t)) ∧
    Event.reset ∉ [Event.deliver .dbz, .accept 0#1 ⟨0x474, 0⟩ ⟨0x64, 0⟩] := ⟨⟨_, rfl⟩, by decide⟩

/-- V-T6: a reset in BUSY, and a request accepted after it. -/
theorem witness_ResetDiscardsTheOperation :
    (at_ (.busy 1#1 ⟨7, 0⟩ ⟨2, 0⟩) resets).pins.rst = true ∧
    ∃ t, trace 2 { at_ (.busy 1#1 ⟨7, 0⟩ ⟨2, 0⟩) resets with coming := [asks] } =
      some ([.reset, .accept 0#1 ⟨0x474, 0⟩ ⟨0x64, 0⟩], t) := ⟨by decide, _, rfl⟩

/-- Two runs from IDLE that accept the same request, one of them a step later. -/
theorem witness_ResponsesDependOnRequestsAlone :
    (∃ t, trace 1 (at_ .idle asks) = some ([.accept 0#1 ⟨0x474, 0⟩ ⟨0x64, 0⟩], t)) ∧
    (∃ t, trace 2 { at_ .idle Signals.quiet with coming := [asks] } =
      some ([.noRequest, .accept 0#1 ⟨0x474, 0⟩ ⟨0x64, 0⟩], t)) := ⟨⟨_, rfl⟩, ⟨_, rfl⟩⟩

end Sys2Proof.Tests
end

section
/-! The readings of a DoubleWord (R10). `dw v` is the one DoubleWord whose unsigned value is `v mod 2^32`; that it
inverts `val` and `sval`, its limbs, and its signed value all follow from that. -/

namespace Sys2Proof.Machine

/-- R10: the limbs, more significant first, concatenate to the unsigned value. -/
theorem val_eq_toNat_append (d : DoubleWord) : val d = (d.hi ++ d.lo).toNat :=
  (toNat_append d.hi d.lo).symm

/-- R10: the signed value takes 2^32 off the unsigned one exactly when the sign bit is 1. -/
theorem sval_eq_ite_hi_bit (d : DoubleWord) :
    sval d = if d.hi.getLsbD 15 then (val d : Int) - 2 ^ 32 else (val d : Int) := by
  rw [sval, signBit]
  cases d.hi.getLsbD 15 <;> simp

/-- An integer congruent mod 2^32 to the unsigned value stands for the DoubleWord. -/
theorem dw_eq_of_emod_eq_val {v : Int} {d : DoubleWord} (h : v % 2 ^ 32 = val d) : dw v = d := by
  have hv := val_dw v
  exact eq_of_val_eq (by omega)

theorem dw_val (d : DoubleWord) : dw (val d) = d := by
  have h := val_lt d
  exact dw_eq_of_emod_eq_val (by omega)

theorem dw_sval (d : DoubleWord) : dw (sval d) = d := dw_eq_of_emod_eq_val (sval_emod d)

theorem dw_lo_toNat (v : Int) : ((dw v).lo.toNat : Int) = v % 2 ^ 32 % 2 ^ 16 := by
  rw [← val_mod, ← val_dw]
  rfl

theorem dw_hi_toNat (v : Int) : ((dw v).hi.toNat : Int) = v % 2 ^ 32 / 2 ^ 16 := by
  rw [← val_div, ← val_dw]
  rfl

/-- In the signed range no two integers are congruent mod 2^32, so `sval` reads back what `dw` was given. -/
theorem sval_dw {v : Int} (hlo : -2 ^ 31 ≤ v) (hhi : v ≤ 2 ^ 31 - 1) : sval (dw v) = v := by
  have hcong : sval (dw v) % 2 ^ 32 = v % 2 ^ 32 := by rw [sval_emod, val_dw]
  have hrange := sval_range (dw v)
  omega

/-- Settles O7: each clause is one of the lemmas above; R12's example is computed. -/
theorem valuesOfADoubleWord : Obligations.ValuesOfADoubleWord := by
  unfold Obligations.ValuesOfADoubleWord
  refine ⟨fun d => ?readings, fun v => ?limbs, ?minusSeven⟩
  case readings => exact ⟨rfl, val_eq_toNat_append d, sval_eq_ite_hi_bit d, dw_val d, dw_sval d⟩
  case limbs => exact ⟨dw_lo_toNat v, dw_hi_toNat v, sval_dw⟩
  case minusSeven => decide

end Sys2Proof.Machine
end

section
/-! The step of the unit, situation by situation: the event that each situation makes, and the state that each event
leads to (R28 to R31, R160, R165, R166). Every statement about a step below is assembled from these. -/

namespace Sys2Proof.Machine

/-! The event, from the situation. -/

theorem event_of_reset {s : State} (hr : s.pins.rst = true) : s.event = .reset := by
  simp [State.event, hr]

theorem event_of_idle_request {s : State} (hr : s.pins.rst = false) (hs : s.st = .idle)
    (hv : s.pins.reqValid = true) : s.event = .accept s.pins.reqOp s.pins.a s.pins.b := by
  simp [State.event, hr, hs, hv]

theorem event_of_idle_quiet {s : State} (hr : s.pins.rst = false) (hs : s.st = .idle)
    (hv : s.pins.reqValid = false) : s.event = .noRequest := by
  simp [State.event, hr, hs, hv]

theorem event_of_busy_over {s : State} {op : BitVec 1} {a b : DoubleWord} (hr : s.pins.rst = false)
    (hs : s.st = .busy op a b) (hw : s.wait = 0) : s.event = .compute op a b := by
  simp [State.event, hr, hs, hw]

theorem event_of_busy_left {s : State} {op : BitVec 1} {a b : DoubleWord} (hr : s.pins.rst = false)
    (hs : s.st = .busy op a b) (hw : s.wait ≠ 0) : s.event = .latency := by
  simp [State.event, hr, hs, hw]

theorem event_of_done_ready {s : State} {rsp : Response} (hr : s.pins.rst = false) (hs : s.st = .done rsp)
    (hy : s.pins.rspReady = true) : s.event = .deliver rsp := by
  simp [State.event, hr, hs, hy]

theorem event_of_done_unready {s : State} {rsp : Response} (hr : s.pins.rst = false) (hs : s.st = .done rsp)
    (hy : s.pins.rspReady = false) : s.event = .stall := by
  simp [State.event, hr, hs, hy]

/-- The reset event is the reset input and nothing else (R160, log 8). -/
theorem event_eq_reset_iff (s : State) : s.event = .reset ↔ s.pins.rst = true := by
  refine ⟨fun h => ?_, event_of_reset⟩
  rcases event_cases s with ⟨-, hr⟩ | ⟨he, -⟩ | ⟨he, -⟩ | ⟨_, _, _, he, -⟩ | ⟨_, _, _, he, -⟩ | ⟨_, he, -⟩ | ⟨_, he, -⟩
  · exact hr
  all_goals rw [he] at h; cases h

/-! The state after the step, from the event. -/

theorem after_reset {s : State} (h : s.event = .reset) : s.after = s.advance.resetBlock := by
  simp [State.after, h]

theorem after_noRequest {s : State} (h : s.event = .noRequest) : s.after = s.advance := by
  simp [State.after, h]

theorem after_accept {s : State} {op : BitVec 1} {a b : DoubleWord} (h : s.event = .accept op a b) :
    s.after = s.advance.accept op a b := by
  simp [State.after, h]

theorem after_latency {s : State} (h : s.event = .latency) : s.after = s.advance.countDown := by
  simp [State.after, h]

theorem after_compute {s : State} {op : BitVec 1} {a b : DoubleWord} (h : s.event = .compute op a b) :
    s.after = s.advance.respond (F op a b) := by
  simp [State.after, h]

theorem after_stall {s : State} (h : s.event = .stall) : s.after = s.advance := by
  simp [State.after, h]

theorem after_deliver {s : State} {rsp : Response} (h : s.event = .deliver rsp) : s.after = s.advance.release := by
  simp [State.after, h]

/-- Whatever the event, the next input signals arrive; when none are coming the last ones stay (log 3). -/
@[simp] theorem after_pins (s : State) : s.after.pins = s.coming.headD s.pins := by
  unfold State.after
  cases s.event <;> simp

@[simp] theorem after_coming (s : State) : s.after.coming = s.coming.tail := by
  unfold State.after
  cases s.event <;> simp

/-- A step in which the caller keeps its duty is answered. -/
theorem step_eq_after {s : State} (hb : s.breaksHold = false) : step s = .next s.after := by
  simp [step_eq, hb]

/-- The compute step runs the instruction of the request held (R30). -/
theorem step_compute {s : State} {op : BitVec 1} {a b : DoubleWord} (hb : s.breaksHold = false)
    (he : s.event = .compute op a b) : step s = exec (decodeOp op a b) s.advance := by
  rw [step_eq_after hb, after_compute he, exec_decodeOp]

/-- Signals that stay change no request. -/
@[simp] theorem holds_self (p : Signals) : p.holds p = true := by
  simp [Signals.holds]

/-- Settles O36: IDLE never makes a request wait, so the step answers; its event is the accept step or none. -/
theorem acceptCapturesTheRequest : Obligations.AcceptCapturesTheRequest := by
  unfold Obligations.AcceptCapturesTheRequest
  intro s hr hs
  refine ⟨s.after, step_eq_after (breaksHold_of_idle hs), fun hv => ?presented, fun hv => ?none⟩
  case presented =>
    have he := event_of_idle_request hr hs hv
    exact ⟨by rw [he]; rfl, by rw [after_accept he]; rfl⟩
  case none =>
    have he := event_of_idle_quiet hr hs hv
    exact ⟨by rw [he]; rfl, by rw [after_noRequest he]; exact hs⟩

/-- Settles O39: the compute step's event is that of the request held, and its effect is to respond with `F` of it. -/
theorem computeStepFormsTheResponse : Obligations.ComputeStepFormsTheResponse := by
  unfold Obligations.ComputeStepFormsTheResponse
  intro s op a b hs hw hr hb
  refine ⟨s.after, step_eq_after hb, ?_⟩
  rw [after_compute (event_of_busy_over hr hs hw), State.respond_st]

/-- Settles O41: the event in DONE is the deliver step or a stall, as `rsp_ready` says. -/
theorem deliverOrStall : Obligations.DeliverOrStall := by
  unfold Obligations.DeliverOrStall
  intro s rsp hs hr hb
  refine ⟨s.after, step_eq_after hb, fun hy => ?delivers, fun hy => ?stalls⟩
  case delivers =>
    have he := event_of_done_ready hr hs hy
    exact ⟨he, by rw [after_deliver he, State.release_st]⟩
  case stalls =>
    have he := event_of_done_unready hr hs hy
    exact ⟨by rw [he]; rfl, by rw [he]; rfl, by rw [after_stall he, State.advance_st, hs]⟩

end Sys2Proof.Machine
end

section
/-! Words and the step: the instruction that the word of a request decodes to, and that a word placed to run next
decodes to (R70, log 1). -/

namespace Sys2Proof.Machine

/-- R70: the word put together from fields decodes to the instruction of those fields. -/
theorem decodeWord_reqWord (op : BitVec 1) (a b : DoubleWord) : decodeWord (reqWord op a b) = decodeOp op a b := by
  obtain ⟨hop, ha, hb⟩ := Laws.WordFields.reqWord_fields op a b
  rw [decodeWord, hop, ha, hb]

/-- What the table decoder reads is the instruction of the 65-bit word, where there is one. -/
theorem decodeTableWord_eq_some_iff (nbits w : Nat) (i : Instr) : decodeTableWord nbits w = some i ↔
    isReqWord (w % 2 ^ nbits) = true ∧ decodeWord (BitVec.ofNat 65 (w % 2 ^ nbits)) = i := by
  unfold decodeTableWord decode
  cases isReqWord (w % 2 ^ nbits) <;> simp [Except.toOption]

/-- The signals of the placing stay for one step, so the caller breaks no duty at it (log 1). -/
theorem breaksHold_withFetchWord (s : State) (nbits w : Nat) : (s.withFetchWord nbits w).breaksHold = false :=
  breaksHold_of_holds (State.withFetchWord_coming s nbits w) (by simp)

/-- The step after the placing is the compute step of the word's fields. -/
theorem event_withFetchWord (s : State) (nbits w : Nat) :
    (s.withFetchWord nbits w).event = .compute (reqOpField (BitVec.ofNat 65 (w % 2 ^ nbits)))
      (reqAField (BitVec.ofNat 65 (w % 2 ^ nbits))) (reqBField (BitVec.ofNat 65 (w % 2 ^ nbits))) :=
  event_of_busy_over rfl (State.withFetchWord_st s nbits w) rfl

/-- Settles O37: the step is exec of the held fields' instruction, which is what their word decodes to; the rest says
what the advanced state is. -/
theorem computeStepRunsTheDecodedRequest : Obligations.ComputeStepRunsTheDecodedRequest := by
  unfold Obligations.ComputeStepRunsTheDecodedRequest
  intro s op a b hs hw hr hb
  have hstep := step_compute hb (event_of_busy_over hr hs hw)
  rw [decodeWord_reqWord]
  exact ⟨hstep, s.advance_st, hw, s.advance_pins, s.advance_coming, s.advance_draw⟩

/-- Settles O38: the placing leaves the unit at the compute step of the word's fields, and their instruction is the
word's. -/
theorem placedWordRunsNext : Obligations.PlacedWordRunsNext := by
  unfold Obligations.PlacedWordRunsNext
  intro s nbits w i hi
  obtain ⟨-, rfl⟩ := (decodeTableWord_eq_some_iff nbits w i).1 hi
  exact step_compute (breaksHold_withFetchWord s nbits w) (event_withFetchWord s nbits w)

end Sys2Proof.Machine
end

section
/-! The output signals (R28), and the response word taken apart again (R62, R69). -/

namespace Sys2Proof.Machine

theorem reqReady_iff (s : State) : s.reqReady = true ↔ s.st = .idle := by
  unfold State.reqReady
  cases s.st <;> simp

theorem rspValid_iff (s : State) : s.rspValid = true ↔ ∃ rsp, s.st = .done rsp := by
  unfold State.rspValid
  cases s.st <;> simp

theorem rspPins_ok {s : State} {r : DoubleWord} (h : s.st = .done (.ok r)) : s.rspPins = rspWord 0#1 r := by
  simp [State.rspPins, h]

theorem rspPins_dbz {s : State} (h : s.st = .done .dbz) :
    s.rspPins = rspWord 1#1 (freeResult (Config.freeRsp s.draw)) := by
  simp [State.rspPins, h]

/-- R62: `status` is bit 32 of the response word. -/
@[simp] theorem rspWord_statusField (status : BitVec 1) (r : DoubleWord) :
    (rspWord status r).extractLsb' 32 1 = status := by
  apply BitVec.eq_of_toNat_eq
  have hr := val_lt r
  have hs := status.isLt
  rw [BitVec.extractLsb'_toNat, rspWord_toNat, Nat.shiftRight_eq_div_pow]
  omega

/-- R62: `r_hi` is bits 31 to 16 of the response word. -/
@[simp] theorem rspWord_hiField (status : BitVec 1) (r : DoubleWord) :
    (rspWord status r).extractLsb' 16 16 = r.hi := by
  apply BitVec.eq_of_toNat_eq
  have hr := val_lt r
  have hhi := val_div r
  rw [BitVec.extractLsb'_toNat, rspWord_toNat, Nat.shiftRight_eq_div_pow]
  omega

/-- R62: `r_lo` is bits 15 to 0 of the response word. -/
@[simp] theorem rspWord_loField (status : BitVec 1) (r : DoubleWord) :
    (rspWord status r).extractLsb' 0 16 = r.lo := by
  apply BitVec.eq_of_toNat_eq
  have hlo := val_mod r
  rw [BitVec.extractLsb'_toNat, rspWord_toNat, Nat.shiftRight_zero]
  omega

@[simp] theorem freeResult_rspWord (status : BitVec 1) (r : DoubleWord) : freeResult (rspWord status r) = r := by
  simp [freeResult]

/-- R69: a word of status OK is read as its result. -/
@[simp] theorem readRspWord_ok (r : DoubleWord) : readRspWord (rspWord 0#1 r) = .ok r := by
  simp [readRspWord]

/-- R69: a word of status DBZ is read as the error, whatever its result bits. -/
@[simp] theorem readRspWord_dbz (r : DoubleWord) : readRspWord (rspWord 1#1 r) = .dbz := by
  simp [readRspWord]

/-- In DONE the pins carry the response: its status, and what the caller reads. -/
theorem rspPins_carry_response {s : State} {rsp : Response} (h : s.st = .done rsp) :
    s.rspPins.extractLsb' 32 1 = rsp.status ∧ readRspWord s.rspPins = rsp := by
  cases rsp with
  | ok r => simp [rspPins_ok h, Response.status]
  | dbz => simp [rspPins_dbz h, Response.status]

/-- Settles O34: the two output flags by the transaction state, the pins by the fields of the response word. -/
theorem outputsFollowTheTransaction : Obligations.OutputsFollowTheTransaction := by
  unfold Obligations.OutputsFollowTheTransaction
  refine fun s => ⟨reqReady_iff s, rspValid_iff s, fun rsp => rspPins_carry_response, fun r h => ?result⟩
  case result =>
    rw [rspPins_ok h]
    exact ⟨rspWord_hiField 0#1 r, rspWord_loField 0#1 r⟩

/-- Settles O32: the state after reset is a fixed one, and IDLE decides both flags. -/
theorem afterResetTheUnitIsReady : Obligations.AfterResetTheUnitIsReady :=
  ⟨State.reset_st, (reqReady_iff _).2 State.reset_st, rfl⟩

end Sys2Proof.Machine
end

section
/-! The invariant of the countdown (log 4): latency is left over in BUSY only. -/

namespace Sys2Proof.Machine

theorem inv_of_wait_eq_zero {s : State} (h : s.wait = 0) : s.Inv := by
  unfold State.Inv
  cases s.st with
  | busy op a b => trivial
  | idle => exact h
  | done rsp => exact h

theorem inv_of_busy {s : State} {op : BitVec 1} {a b : DoubleWord} (h : s.st = .busy op a b) : s.Inv := by
  simp [State.Inv, h]

theorem wait_eq_zero_of_idle {s : State} (hi : s.Inv) (h : s.st = .idle) : s.wait = 0 := by
  simpa [State.Inv, h] using hi

theorem wait_eq_zero_of_done {s : State} {rsp : Response} (hi : s.Inv) (h : s.st = .done rsp) : s.wait = 0 := by
  simpa [State.Inv, h] using hi

/-- The accept step and the countdown end in BUSY; a reset sets `wait` to 0, and every other step leaves it as it was,
which is 0 there. -/
theorem after_inv {s : State} (hi : s.Inv) : s.after.Inv := by
  rcases event_cases s with ⟨he, -⟩ | ⟨he, -, hs, -⟩ | ⟨he, -⟩ | ⟨op, a, b, he, -, hs, -⟩ | ⟨op, a, b, he, -, -, hw⟩ |
    ⟨rsp, he, -, hs, -⟩ | ⟨rsp, he, -, hs, -⟩
  · rw [after_reset he]
    exact inv_of_wait_eq_zero (State.resetBlock_wait _)
  · have hw := wait_eq_zero_of_idle hi hs
    rw [after_noRequest he]
    exact inv_of_wait_eq_zero hw
  · rw [after_accept he]
    exact inv_of_busy (State.accept_st _ _ _ _)
  · rw [after_latency he]
    exact inv_of_busy hs
  · rw [after_compute he]
    exact inv_of_wait_eq_zero hw
  · have hw := wait_eq_zero_of_done hi hs
    rw [after_stall he]
    exact inv_of_wait_eq_zero hw
  · have hw := wait_eq_zero_of_done hi hs
    rw [after_deliver he]
    exact inv_of_wait_eq_zero hw

/-- Settles O46: a step that answers leads to the state of its event. -/
theorem stepKeepsTheInvariant : Obligations.StepKeepsTheInvariant := by
  unfold Obligations.StepKeepsTheInvariant
  intro s t hi hstep
  rw [step_next hstep]
  exact after_inv hi

/-- Settles O45: reset counts no latency. -/
theorem resetMeetsTheInvariant : Obligations.ResetMeetsTheInvariant :=
  inv_of_wait_eq_zero State.reset_wait

end Sys2Proof.Machine
end

section
/-! Bounded liveness (R29 to R31, R166): BUSY runs its latency down and forms the response, and a caller whose signals
stay has every run it wants. -/

namespace Sys2Proof.Machine

/-- A run has no reset among its events exactly when the reset input is off at its first step and the rest has none. -/
theorem reset_not_mem_event_cons (s : State) (es : List Event) :
    Event.reset ∉ s.event :: es ↔ s.pins.rst = false ∧ Event.reset ∉ es := by
  rw [List.mem_cons, not_or, @eq_comm _ Event.reset, event_eq_reset_iff, Bool.not_eq_true]

/-- A run from BUSY of as many steps as its latency and one more, by induction on the latency left: each step but the
last counts down, the last computes. -/
theorem done_of_busy_trace {n : Nat} {op : BitVec 1} {a b : DoubleWord} {s t : State} {es : List Event}
    (hs : s.st = .busy op a b) (hw : s.wait = n) (ht : trace (n + 1) s = some (es, t)) (hes : Event.reset ∉ es) :
    t.st = .done (F op a b) ∧ es.filterMap Event.delivered = [] := by
  induction n generalizing s es with
  | zero =>
    obtain ⟨-, es', rfl, ht'⟩ := trace_succ ht
    obtain ⟨hr, -⟩ := (reset_not_mem_event_cons s es').1 hes
    have he := event_of_busy_over hr hs hw
    obtain ⟨rfl, rfl⟩ : [] = es' ∧ s.after = t := by simpa [trace_zero] using ht'
    exact ⟨by rw [after_compute he, State.respond_st], by simp [he]⟩
  | succ n ih =>
    obtain ⟨-, es', rfl, ht'⟩ := trace_succ ht
    obtain ⟨hr, hes'⟩ := (reset_not_mem_event_cons s es').1 hes
    have he := event_of_busy_left hr hs (by omega)
    have hst : s.after.st = .busy op a b := by rw [after_latency he]; exact hs
    have hwait : s.after.wait = n := by rw [after_latency he]; simp [hw]
    obtain ⟨hdone, hnone⟩ := ih hst hwait ht' hes'
    exact ⟨hdone, by rw [he, List.filterMap_cons_none delivered_latency, hnone]⟩

/-- Settles O47: the run from BUSY, at the latency the state holds. -/
theorem busyReachesDone : Obligations.BusyReachesDone := by
  unfold Obligations.BusyReachesDone
  exact fun s t op a b es hs ht hes => done_of_busy_trace hs rfl ht hes

/-- When no signals are coming a run of any length exists, the signals stay, and no reset happens in it unless the
reset input is on (log 3). -/
theorem exists_trace_of_coming_nil (n : Nat) {s : State} (hc : s.coming = []) (hr : s.pins.rst = false) :
    ∃ es t, trace n s = some (es, t) ∧ Event.reset ∉ es ∧ t.pins = s.pins ∧ t.coming = [] := by
  induction n generalizing s with
  | zero => exact ⟨[], s, trace_zero s, List.not_mem_nil, rfl, hc⟩
  | succ n ih =>
    have hpins : s.after.pins = s.pins := by simp [hc]
    obtain ⟨es, t, ht, hes, hp, hct⟩ := ih (s := s.after) (by simp [hc]) (by rw [hpins, hr])
    exact ⟨s.event :: es, t, trace_cons (breaksHold_of_none hc) ht, (reset_not_mem_event_cons s es).2 ⟨hr, hes⟩,
      hp.trans hpins, hct⟩

/-- Two runs, one from where the other ends, are one run. -/
theorem trace_append {m n : Nat} {s u t : State} {es es' : List Event} (h : trace m s = some (es, u))
    (h' : trace n u = some (es', t)) : trace (m + n) s = some (es ++ es', t) := by
  induction m generalizing s es with
  | zero =>
    obtain ⟨rfl, rfl⟩ : [] = es ∧ s = u := by simpa [trace_zero] using h
    simpa using h'
  | succ m ih =>
    obtain ⟨hb, es₁, rfl, h₁⟩ := trace_succ h
    rw [Nat.succ_add_eq_add_succ]
    exact trace_cons hb (ih h₁)

/-- A run of one step. -/
theorem trace_one {s : State} (hb : s.breaksHold = false) : trace 1 s = some ([s.event], s.after) :=
  trace_cons hb (trace_zero s.after)

/-- Settles O48: the run is the accept step, the steps from BUSY to DONE, and the deliver step. The signals stay
throughout, so no step is refused and none is a reset. -/
theorem waitingCallerIsAnswered : Obligations.WaitingCallerIsAnswered := by
  unfold Obligations.WaitingCallerIsAnswered
  intro s hs hr hv hy hc
  have heAccept := event_of_idle_request hr hs hv
  have hBusy : s.after.st = .busy s.pins.reqOp s.pins.a s.pins.b := by rw [after_accept heAccept, State.accept_st]
  have hPins : s.after.pins = s.pins := by simp [hc]
  obtain ⟨es, t, hRun, hes, htPins, htComing⟩ :=
    exists_trace_of_coming_nil (s.after.wait + 1) (s := s.after) (by simp [hc]) (by rw [hPins, hr])
  obtain ⟨hDone, hNone⟩ := done_of_busy_trace hBusy rfl hRun hes
  have heDeliver : t.event = .deliver _ :=
    event_of_done_ready (by rw [htPins, hPins, hr]) hDone (by rw [htPins, hPins, hy])
  have hDeliverRun := trace_one (breaksHold_of_none htComing)
  refine ⟨_, _, t.after, trace_cons (breaksHold_of_none hc) (trace_append hRun hDeliverRun), ?idle, ?answer⟩
  case idle => rw [after_deliver heDeliver, State.release_st]
  case answer =>
    rw [heAccept, List.filterMap_cons_none (delivered_accept _ _ _), List.filterMap_append, hNone, heDeliver]
    rfl

end Sys2Proof.Machine
end

section
/-! Order and independence (R45, R48, R49): a step that is no reset neither loses an answer nor makes one up, so over a
run the answers come out in the order their requests went in, and depend on those requests alone. -/

namespace Sys2Proof.Machine

/-- The unit holds one operation or one response, or neither (R48: one request at a time). -/
theorem length_owed_le_one (s : State) : s.owed.length ≤ 1 := by
  unfold State.owed
  cases s.st <;> simp

/-- R29 to R31: the accept step turns its request into an answer owed, the deliver step hands over what is owed, and
every other step but a reset leaves what is owed as it is; the compute step only forms it. -/
theorem owed_append_answerDue_eq_delivered_append_owed_after {s : State} (hr : s.pins.rst = false) :
    s.owed ++ [s.event].filterMap Event.answerDue = [s.event].filterMap Event.delivered ++ s.after.owed := by
  rcases event_cases s with ⟨-, hr'⟩ | ⟨he, -, hs, -⟩ | ⟨he, -, hs, -⟩ | ⟨op, a, b, he, -, hs, -⟩ |
    ⟨op, a, b, he, -, hs, -⟩ | ⟨rsp, he, -, hs, -⟩ | ⟨rsp, he, -, hs, -⟩
  · simp [hr] at hr'
  · have hs' : s.after.st = .idle := by rw [after_noRequest he]; exact hs
    simp [List.filterMap_cons, he, owed_idle hs, owed_idle hs']
  · have hs' : s.after.st = .busy s.pins.reqOp s.pins.a s.pins.b := by rw [after_accept he, State.accept_st]
    simp [List.filterMap_cons, he, owed_idle hs, owed_busy hs']
  · have hs' : s.after.st = .busy op a b := by rw [after_latency he]; exact hs
    simp [List.filterMap_cons, he, owed_busy hs, owed_busy hs']
  · have hs' : s.after.st = .done (F op a b) := by rw [after_compute he, State.respond_st]
    simp [List.filterMap_cons, he, owed_busy hs, owed_done hs']
  · have hs' : s.after.st = .done rsp := by rw [after_stall he]; exact hs
    simp [List.filterMap_cons, he, owed_done hs, owed_done hs']
  · have hs' : s.after.st = .idle := by rw [after_deliver he, State.release_st]
    simp [List.filterMap_cons, he, owed_done hs, owed_idle hs']

/-- The same over a run, by induction on its steps. -/
theorem owed_append_answersDue_eq_delivered_append_owed {n : Nat} {s t : State} {es : List Event}
    (ht : trace n s = some (es, t)) (hes : Event.reset ∉ es) :
    s.owed ++ es.filterMap Event.answerDue = es.filterMap Event.delivered ++ t.owed := by
  induction n generalizing s es with
  | zero =>
    obtain ⟨rfl, rfl⟩ : [] = es ∧ s = t := by simpa [trace_zero] using ht
    simp
  | succ n ih =>
    obtain ⟨-, es', rfl, ht'⟩ := trace_succ ht
    obtain ⟨hr, hes'⟩ := (reset_not_mem_event_cons s es').1 hes
    rw [← List.singleton_append, List.filterMap_append, List.filterMap_append]
    calc s.owed ++ ([s.event].filterMap Event.answerDue ++ es'.filterMap Event.answerDue)
        = [s.event].filterMap Event.delivered ++ (s.after.owed ++ es'.filterMap Event.answerDue) := by
          rw [← List.append_assoc, owed_append_answerDue_eq_delivered_append_owed_after hr, List.append_assoc]
      _ = [s.event].filterMap Event.delivered ++ es'.filterMap Event.delivered ++ t.owed := by
          rw [ih ht' hes', List.append_assoc]

/-- The answers due in a run are those to the requests accepted in it, and to nothing else (00_scope.md R15). -/
theorem answersDue_eq_map_requests (es : List Event) :
    es.filterMap Event.answerDue = (es.filterMap Event.request).map fun r => F r.1 r.2.1 r.2.2 :=
  (List.map_filterMap ..).symm

/-- From IDLE nothing is owed, so what a run delivers is the first part of the answers to what it accepts. -/
theorem delivered_prefix_answersDue {n : Nat} {s t : State} {es : List Event} (hs : s.st = .idle)
    (ht : trace n s = some (es, t)) (hes : Event.reset ∉ es) :
    es.filterMap Event.delivered <+: es.filterMap Event.answerDue := by
  have hrun := owed_append_answersDue_eq_delivered_append_owed ht hes
  rw [owed_idle hs, List.nil_append] at hrun
  exact ⟨t.owed, hrun.symm⟩

/-- Settles O49: the conservation of answers over a run, and the one place in the unit that can hold an answer. -/
theorem responsesInAcceptanceOrder : Obligations.ResponsesInAcceptanceOrder := by
  unfold Obligations.ResponsesInAcceptanceOrder
  exact fun _ _ t _ ht hes => ⟨owed_append_answersDue_eq_delivered_append_owed ht hes, length_owed_le_one t⟩

/-- Settles O51: both runs deliver a prefix of one list, the answers to the requests they share. -/
theorem responsesDependOnRequestsAlone : Obligations.ResponsesDependOnRequestsAlone := by
  unfold Obligations.ResponsesDependOnRequestsAlone
  intro m n s s' t t' es es' hs hs' ht ht' hes hes' hreq
  have hpre := delivered_prefix_answersDue hs ht hes
  have hpre' := delivered_prefix_answersDue hs' ht' hes'
  have hdue : es.filterMap Event.answerDue = es'.filterMap Event.answerDue := by
    rw [answersDue_eq_map_requests, answersDue_eq_map_requests, hreq]
  rw [hdue] at hpre
  exact List.prefix_or_prefix_of_prefix hpre hpre'

/-- Settles O30: an instruction only responds, and its response is `F` of its fields, which no state enters. -/
theorem operationsChangeOnlyTheResponse : Obligations.OperationsChangeOnlyTheResponse := by
  unfold Obligations.OperationsChangeOnlyTheResponse
  intro i s t h
  obtain rfl : s.respond (F i.op i.a i.b) = t := by simpa [exec_eq] using h
  exact ⟨rfl, rfl, rfl, rfl, F i.op i.a i.b, State.respond_st s _, exec_eq i⟩

end Sys2Proof.Machine
end

section
/-! The request word: its fields and its value (R60, R61), and that decoding undoes encoding, and encoding decoding
(R65, R66, R70). -/

namespace Sys2Proof.Machine

/-- R60: a request word, as a number: the operation above the values of the two operands. -/
theorem reqWord_toNat (op : BitVec 1) (a b : DoubleWord) :
    (reqWord op a b).toNat = op.toNat * 2 ^ 64 + val a * 2 ^ 32 + val b := by
  rw [reqWord, toNat_append, toNat_append, toNat_append, toNat_append, val, val]
  ring

/-! Each field of a word, as a number (R61, R70). -/

theorem reqOpField_toNat (w : BitVec 65) : (reqOpField w).toNat = w.toNat / 2 ^ 64 := by
  have hw := w.isLt
  rw [reqOpField, BitVec.extractLsb'_toNat, Nat.shiftRight_eq_div_pow]
  omega

theorem reqOpField_eq_zero_iff (w : BitVec 65) : reqOpField w = 0#1 ↔ w.toNat / 2 ^ 64 = 0 := by
  rw [← reqOpField_toNat, ← BitVec.toNat_inj, BitVec.toNat_zero]

theorem reqAField_hi_toNat (w : BitVec 65) : (reqAField w).hi.toNat = w.toNat / 2 ^ 48 % 2 ^ 16 := by
  rw [reqAField, BitVec.extractLsb'_toNat, Nat.shiftRight_eq_div_pow]

theorem reqAField_lo_toNat (w : BitVec 65) : (reqAField w).lo.toNat = w.toNat / 2 ^ 32 % 2 ^ 16 := by
  rw [reqAField, BitVec.extractLsb'_toNat, Nat.shiftRight_eq_div_pow]

theorem reqBField_hi_toNat (w : BitVec 65) : (reqBField w).hi.toNat = w.toNat / 2 ^ 16 % 2 ^ 16 := by
  rw [reqBField, BitVec.extractLsb'_toNat, Nat.shiftRight_eq_div_pow]

theorem reqBField_lo_toNat (w : BitVec 65) : (reqBField w).lo.toNat = w.toNat % 2 ^ 16 := by
  rw [reqBField, BitVec.extractLsb'_toNat, Nat.shiftRight_zero]

/-- R60: `REQ[63:32] = val(a)`, read from the word. -/
theorem val_reqAField (w : BitVec 65) : val (reqAField w) = w.toNat / 2 ^ 32 % 2 ^ 32 := by
  rw [val, reqAField_hi_toNat, reqAField_lo_toNat]
  omega

/-- R60: `REQ[31:0] = val(b)`, read from the word. -/
theorem val_reqBField (w : BitVec 65) : val (reqBField w) = w.toNat % 2 ^ 32 := by
  rw [val, reqBField_hi_toNat, reqBField_lo_toNat]
  omega

/-- The fields of a word cover all its bits: together they are the word again. -/
theorem reqWord_of_fields (w : BitVec 65) : reqWord (reqOpField w) (reqAField w) (reqBField w) = w := by
  apply BitVec.eq_of_toNat_eq
  rw [reqWord_toNat, reqOpField_toNat, val_reqAField, val_reqBField]
  omega

/-! Decoding and encoding undo each other. -/

@[simp] theorem decodeWord_op (w : BitVec 65) : (decodeWord w).op = reqOpField w := decodeOp_op _ _ _

@[simp] theorem decodeWord_a (w : BitVec 65) : (decodeWord w).a = reqAField w := decodeOp_a _ _ _

@[simp] theorem decodeWord_b (w : BitVec 65) : (decodeWord w).b = reqBField w := decodeOp_b _ _ _

/-- An instruction is the one of its own operation and operands. -/
theorem decodeOp_fields (i : Instr) : decodeOp i.op i.a i.b = i := by
  cases i <;> rfl

theorem decodeWord_encode (i : Instr) : decodeWord (encode i) = i := by
  rw [encode, decodeWord_reqWord, decodeOp_fields]

theorem encode_decodeWord (w : BitVec 65) : encode (decodeWord w) = w := by
  rw [encode, decodeWord_op, decodeWord_a, decodeWord_b, reqWord_of_fields]

theorem isReqWord_iff (w : Nat) : isReqWord w = true ↔ w < 2 ^ 65 := decide_eq_true_iff

/-- R65: the decoder of counted bits accepts every 65-bit word, and reads it as the word decoder does. -/
theorem decode_toNat (w : BitVec 65) : decode 65 w.toNat = .ok (decodeWord w) := by
  rw [decode, Nat.mod_eq_of_lt w.isLt, if_pos ((isReqWord_iff _).2 w.isLt), BitVec.ofNat_toNat, BitVec.setWidth_eq]

/-- R66, log 15: the one reason to refuse a number is its length. -/
theorem decode_eq_error_iff (nbits w : Nat) : decode nbits w = .error .notOneReqWord ↔ 2 ^ 65 ≤ w % 2 ^ nbits := by
  rw [decode]
  split
  case isTrue h => simpa using (isReqWord_iff _).1 h
  case isFalse h => simpa using mt (isReqWord_iff _).2 h

/-- R61: bit 64 of the word selects the instruction. -/
theorem decodeWord_eq_ite (w : BitVec 65) : decodeWord w =
    if w.toNat / 2 ^ 64 = 0 then .mul (reqAField w) (reqBField w) else .divs (reqAField w) (reqBField w) := by
  simp only [decodeWord, decodeOp, reqOpField_eq_zero_iff]

/-- Settles O1: the word decoder undoes the encoder, and on 65 bits the table decoder is the word decoder. -/
theorem decodeOfEncodeIsInstr : Obligations.DecodeOfEncodeIsInstr := by
  unfold Obligations.DecodeOfEncodeIsInstr
  intro i _
  refine ⟨decodeWord_encode i, ?_⟩
  rw [decodeTableWord, decode_toNat, decodeWord_encode]
  rfl

/-- Settles O2: the fields of a word cover it, and a 65-bit word is never too long. -/
theorem encodeOfDecodeIsWord : Obligations.EncodeOfDecodeIsWord :=
  fun w => ⟨encode_decodeWord w, decode_toNat w⟩

/-- Settles O3: the selection by bit 64, and each limb as its own field of the word. -/
theorem decoderReadsTheFields : Obligations.DecoderReadsTheFields := by
  unfold Obligations.DecoderReadsTheFields
  intro w
  rw [decodeWord_a, decodeWord_b]
  exact ⟨decodeWord_eq_ite w, reqAField_hi_toNat w, reqAField_lo_toNat w, reqBField_hi_toNat w,
    reqBField_lo_toNat w⟩

/-- Settles O4: the encoder's word is the request word of the instruction's fields. -/
theorem wordValuesAreOperandValues : Obligations.WordValuesAreOperandValues :=
  fun i => reqWord_toNat i.op i.a i.b

/-- Settles O5: the length test is the decoder's only refusal. -/
theorem longerThanOneWordRefused : Obligations.LongerThanOneWordRefused :=
  decode_eq_error_iff

/-- Settles O6: the three words are closed, and the decoder evaluates them. -/
theorem sampleWordsDecode : Obligations.SampleWordsDecode := by
  unfold Obligations.SampleWordsDecode
  decide

/-- R15, R142: the answer is DBZ exactly for DIVS with a zero divisor. -/
theorem F_eq_dbz_iff (op : BitVec 1) (a b : DoubleWord) : F op a b = .dbz ↔ op ≠ 0#1 ∧ val b = 0 := by
  rw [F, ← isZero_iff]
  split
  case isTrue hmul => simp [hmul]
  case isFalse hdivs => cases hz : isZero b <;> simp [hdivs]

/-- Settles O31: every instruction answers `F` of its fields, which are those of the word. -/
theorem everyRequestIsAnswered : Obligations.EveryRequestIsAnswered := by
  unfold Obligations.EveryRequestIsAnswered
  intro w s
  refine ⟨_, exec_eq (decodeWord w) s, ?_⟩
  have hw := w.isLt
  rw [F_eq_dbz_iff, decodeWord_op, decodeWord_b, Ne, reqOpField_eq_zero_iff, val_reqBField]
  omega

/-- Settles O35: the pins in DONE are a response word, whose value and whose reading are known. -/
theorem responseWordFormat : Obligations.ResponseWordFormat := by
  unfold Obligations.ResponseWordFormat
  refine ⟨fun s r h => ?ok, fun s h => ?dbz, fun r => ⟨readRspWord_ok r, readRspWord_dbz r⟩⟩
  case ok =>
    rw [rspPins_ok h, rspWord_toNat]
    simp
  case dbz =>
    have hr := val_lt (freeResult (Config.freeRsp s.draw))
    rw [rspPins_dbz h, rspWord_toNat, BitVec.toNat_one Nat.one_pos]
    omega

end Sys2Proof.Machine
end

section
/-! The digits of a request and of a response (R60, R62): their count, that no separator is among them, and the number
they spell. -/

namespace Sys2Proof.Machine

@[simp] theorem length_writeDigits (base k n : Nat) : (writeDigits base k n).length = k := by
  induction k generalizing n with
  | zero => rfl
  | succ k ih => rw [writeDigits, List.length_append, ih, List.length_singleton]

/-- What is written in a base up to 16 are digits below the base. -/
theorem digit_of_mem_writeDigits {base k n : Nat} {c : Char} (h0 : 0 < base) (h16 : base ≤ 16)
    (hc : c ∈ writeDigits base k n) : ∃ d < base, digit c = some d := by
  induction k generalizing n with
  | zero => cases hc
  | succ k ih =>
    rw [writeDigits, List.mem_append, List.mem_singleton] at hc
    rcases hc with hc | rfl
    · exact ih hc
    · have hd : n % base < base := Nat.mod_lt n h0
      exact ⟨n % base, hd, digit_digitChar _ (by omega)⟩

/-- Digits are kept when the separators are taken out. -/
@[simp] theorem filter_hexDoubleWord (d : DoubleWord) :
    (hexDoubleWord d).filter (fun c => !decide (c = '_')) = hexDoubleWord d := by
  rw [List.filter_eq_self]
  intro c hc
  obtain ⟨n, -, hn⟩ := digit_of_mem_writeDigits (by decide) (by decide) hc
  have hsep : c ≠ '_' := by rintro rfl; exact absurd hn (by simp [digit])
  simpa using hsep

/-- The 8 digits of a DoubleWord are read as its value, below the digits before them. -/
theorem readDigits_hexDoubleWord (d : DoubleWord) (v k : Nat) (cs : List Char) :
    readDigits 16 v k (hexDoubleWord d ++ cs) = readDigits 16 (v * 2 ^ 32 + val d) (k + 8) cs := by
  have hval : val d % 16 ^ 8 = val d := Nat.mod_eq_of_lt (val_lt d)
  rw [hexDoubleWord, readDigits_hexDigits, hval]
  norm_num

/-- The digit of a one-bit field is read as that bit; it comes first. -/
theorem readDigits_digitChar_bit (b : BitVec 1) (cs : List Char) :
    readDigits 16 0 0 (digitChar b.toNat :: cs) = readDigits 16 b.toNat 1 cs := by
  have hb : b.toNat < 16 := by have := b.isLt; omega
  simpa using readDigits_cons (digit_digitChar _ hb) hb 0 0 cs

theorem digitChar_bit_ne_separator (b : BitVec 1) : digitChar b.toNat ≠ '_' := by
  revert b
  decide

/-- R60: the digits without separators are those of `op`, `a` and `b` in a row. -/
theorem filter_requestDigits (i : Instr) : (requestDigits i).filter (· ≠ '_') =
    digitChar i.op.toNat :: (hexDoubleWord i.a ++ hexDoubleWord i.b) := by
  simp [requestDigits, digitChar_bit_ne_separator]

/-- R62: the digits of a result without the separator are those of its status and its value. -/
theorem filter_responseDigits_ok (r : DoubleWord) : (responseDigits (.ok r)).filter (· ≠ '_') =
    digitChar (0#1).toNat :: hexDoubleWord r := by
  have hstatus : digitChar (0#1).toNat = '0' := rfl
  rw [hstatus]
  simp [responseDigits]

/-- Settles O12: one digit for `op` and eight for each operand, which is how the word's value is made up. -/
theorem requestDigitsSpellTheWord : Obligations.RequestDigitsSpellTheWord := by
  unfold Obligations.RequestDigitsSpellTheWord
  intro i
  have hword : (encode i).toNat = (i.op.toNat * 2 ^ 32 + val i.a) * 2 ^ 32 + val i.b := by
    rw [encode, reqWord_toNat]
    ring
  rw [hword, filter_requestDigits, readDigits_digitChar_bit, readDigits_hexDoubleWord,
    ← List.append_nil (hexDoubleWord i.b), readDigits_hexDoubleWord, readDigits_stop (by simp)]

/-- Settles O52: one digit for the status and eight for the result; the text of DBZ is fixed. -/
theorem responseDigitsSpellTheWord : Obligations.ResponseDigitsSpellTheWord := by
  unfold Obligations.ResponseDigitsSpellTheWord
  refine ⟨fun r => ⟨rfl, ?_⟩, rfl⟩
  rw [filter_responseDigits_ok, readDigits_digitChar_bit, ← List.append_nil (hexDoubleWord r),
    readDigits_hexDoubleWord, readDigits_stop (by simp), rspWord_toNat]

end Sys2Proof.Machine
end

section
/-! Reading an operand (R67): what is read is within the bounds the spec sets, and every way to write an operand is read
as the DoubleWord it stands for. -/

namespace Sys2Proof.Machine

/-! Bounds of what is read. -/

/-- Reading on, a value below the power of its digit count stays below it. -/
theorem readDigits_lt {base v k v' k' : Nat} {cs rest : List Char} (hv : v < base ^ k)
    (h : readDigits base v k cs = (v', k', rest)) : v' < base ^ k' := by
  induction cs generalizing v k with
  | nil =>
    cases h
    exact hv
  | cons c cs ih =>
    rw [readDigits] at h
    split at h
    · split at h
      case isTrue d _ hd =>
        refine ih ?_ h
        calc v * base + d < (v + 1) * base := by rw [Nat.succ_mul]; omega
          _ ≤ base ^ k * base := Nat.mul_le_mul_right base hv
          _ = base ^ (k + 1) := (Nat.pow_succ ..).symm
      case isFalse =>
        cases h
        exact hv
    · cases h
      exact hv

/-- A number of at most `most` digits is below the power of that many. -/
theorem readNumber_lt {base most v : Nat} {cs rest : List Char} (h0 : 0 < base)
    (h : readNumber base most cs = some (v, rest)) : v < base ^ most := by
  unfold readNumber at h
  obtain ⟨hk, hsome⟩ := Option.ite_none_right_eq_some.1 h
  cases hsome
  calc _ < base ^ _ := readDigits_lt (by simp) rfl
    _ ≤ base ^ most := Nat.pow_le_pow_right h0 hk.2

/-- What a literal that is read can be: a decimal integer, a number of at most 8 hexadecimal digits, or two of at most
4. -/
theorem readLiteral_cases {cs rest : List Char} {l : Literal} (h : readLiteral cs = some (l, rest)) :
    (∃ n, l = .decimal n) ∨ (∃ v r r', readNumber 16 8 r = some (v, r') ∧ l = .hex v) ∨
    (∃ hi lo r r' q q', readNumber 16 4 r = some (hi, r') ∧ readNumber 16 4 q = some (lo, q') ∧
      l = .limbs hi lo) := by
  unfold readLiteral at h
  split at h
  · cases h
  split at h
  case isTrue =>
    split at h
    · cases h
    next hi r' hhi =>
    split at h
    · cases h
    split at h
    · cases h
    next lo q' hlo =>
    obtain ⟨_, _, hl⟩ := Option.map_eq_some_iff.1 h
    cases hl
    exact .inr (.inr ⟨hi, lo, _, r', _, q', hhi, hlo, rfl⟩)
  case isFalse =>
    split at h
    case isTrue =>
      obtain ⟨_, _, hl⟩ := Option.map_eq_some_iff.1 h
      cases hl
      exact .inl ⟨_, rfl⟩
    case isFalse =>
      split at h
      all_goals
        obtain ⟨⟨v, r'⟩, hv, hl⟩ := Option.map_eq_some_iff.1 h
        cases hl
      · exact .inr (.inl ⟨v, _, r', hv, rfl⟩)
      · exact .inl ⟨_, rfl⟩

theorem wf_hex_iff (v : Nat) : (Literal.hex v).wf = true ↔ v < 16 ^ 8 := by
  simp [Literal.wf]

theorem wf_limbs_iff (hi lo : Nat) : (Literal.limbs hi lo).wf = true ↔ hi < 16 ^ 4 ∧ lo < 16 ^ 4 := by
  simp [Literal.wf]

/-- Settles O8: the digits that a number may have bound its value. -/
theorem literalsReadAreWellFormed : Obligations.LiteralsReadAreWellFormed := by
  unfold Obligations.LiteralsReadAreWellFormed
  intro cs rest l h
  rcases readLiteral_cases h with ⟨n, rfl⟩ | ⟨v, _, _, hv, rfl⟩ | ⟨hi, lo, _, _, _, _, hhi, hlo, rfl⟩
  · rfl
  · exact (wf_hex_iff v).2 (readNumber_lt (by decide) hv)
  · exact (wf_limbs_iff hi lo).2 ⟨readNumber_lt (by decide) hhi, readNumber_lt (by decide) hlo⟩

/-! Reading back what is written. -/

/-- A text that may follow a number: it begins neither with a digit nor with the `x` that would make a `0` before it the
mark of a hexadecimal literal. -/
def EndsNumber (cs : List Char) : Prop := ∀ c r, cs = c :: r → digit c = none ∧ c ≠ 'x'

theorem endsNumber_nil : EndsNumber [] := by
  intro c r h
  cases h

theorem endsNumber_cons {c : Char} (hd : digit c = none) (hx : c ≠ 'x') (cs : List Char) : EndsNumber (c :: cs) := by
  rintro _ _ ⟨⟩
  exact ⟨hd, hx⟩

/-- A word at the front is taken off. -/
@[simp] theorem afterWord_append (w cs : List Char) : afterWord w (w ++ cs) = some cs := by
  induction w with
  | nil => rfl
  | cons c w ih => simpa [afterWord] using ih

/-- A written number is read back, up to where no digit stands. -/
theorem readNumber_writeDigits {base most k n : Nat} {cs : List Char} (h0 : 0 < base) (h16 : base ≤ 16) (hk : 1 ≤ k)
    (hmost : k ≤ most) (hn : n < base ^ k) (hcs : EndsNumber cs) :
    readNumber base most (writeDigits base k n ++ cs) = some (n, cs) := by
  have hread : readDigits base 0 0 (writeDigits base k n ++ cs) = (n, k, cs) := by
    rw [readDigits_writeDigits h0 h16, readDigits_stop (fun c r h => (hcs c r h).1),
      Nat.mod_eq_of_lt hn, Nat.zero_mul, Nat.zero_add, Nat.zero_add]
  simp [readNumber, hread, hk, hmost]

theorem readNumber_hexDigits {most k n : Nat} {cs : List Char} (hk : 1 ≤ k) (hmost : k ≤ most) (hn : n < 16 ^ k)
    (hcs : EndsNumber cs) : readNumber 16 most (hexDigits k n ++ cs) = some (n, cs) :=
  readNumber_writeDigits (by decide) (by decide) hk hmost hn hcs

theorem readDecimal_writeDigits {k n : Nat} {cs : List Char} (hk : 1 ≤ k) (hn : n < 10 ^ k)
    (hcs : EndsNumber cs) : readDecimal (writeDigits 10 k n ++ cs) = some (n, cs) :=
  readNumber_writeDigits (by decide) (by decide) hk (by simp) hn hcs

theorem ne_of_digit_eq_some {c e : Char} {n : Nat} (hc : digit c = some n) (he : digit e = none) : c ≠ e := by
  rintro rfl
  cases hc.symm.trans he

/-- A written number begins with a digit of its base. -/
theorem exists_writeDigits_eq_cons {base k : Nat} (h0 : 0 < base) (h16 : base ≤ 16) (hk : 1 ≤ k) (n : Nat) :
    ∃ c cs, writeDigits base k n = c :: cs ∧ ∃ d < base, digit c = some d := by
  cases hw : writeDigits base k n with
  | nil =>
    have hlen := length_writeDigits base k n
    rw [hw, List.length_nil] at hlen
    omega
  | cons c cs => exact ⟨c, cs, rfl, digit_of_mem_writeDigits h0 h16 (by rw [hw]; exact List.mem_cons_self)⟩

/-- A written number does not begin with the mark `0x`: after its first digit comes another, or what ends it. -/
theorem afterWord_hexMark_writeDigits {base k : Nat} (h0 : 0 < base) (h16 : base ≤ 16) (hk : 1 ≤ k) (n : Nat)
    {cs : List Char} (hcs : EndsNumber cs) : afterWord ['0', 'x'] (writeDigits base k n ++ cs) = none := by
  obtain ⟨c, ds, hw, -⟩ := exists_writeDigits_eq_cons h0 h16 hk n
  have hsecond : ∀ e r, ds ++ cs = e :: r → e ≠ 'x' := by
    intro e r he
    cases ds with
    | nil => exact (hcs e r he).2
    | cons d ds =>
      cases he
      have hmem : e ∈ writeDigits base k n := by simp [hw]
      obtain ⟨m, -, hm⟩ := digit_of_mem_writeDigits h0 h16 hmem
      exact ne_of_digit_eq_some hm (by decide)
  rw [hw, List.cons_append]
  cases hrest : ds ++ cs with
  | nil => simp [afterWord]
  | cons e r => simp [afterWord, (hsecond e r hrest).symm]

/-! The reading of each form of an operand. -/

theorem readLiteral_decimal {k n : Nat} {cs : List Char} (hk : 1 ≤ k) (hn : n < 10 ^ k) (hcs : EndsNumber cs) :
    readLiteral (writeDigits 10 k n ++ cs) = some (.decimal n, cs) := by
  have hread := readDecimal_writeDigits hk hn hcs
  have hmark := afterWord_hexMark_writeDigits (base := 10) (by decide) (by decide) hk n hcs
  obtain ⟨c, ds, hw, d, -, hc⟩ := exists_writeDigits_eq_cons (base := 10) (by decide) (by decide) hk n
  have hbrace : c ≠ openBrace := ne_of_digit_eq_some hc (by decide)
  have hminus : ¬ (c = '-' ∨ c = '−') :=
    not_or.2 ⟨ne_of_digit_eq_some hc (by decide), ne_of_digit_eq_some hc (by decide)⟩
  rw [hw, List.cons_append] at hread hmark ⊢
  simp [readLiteral, hbrace, hminus, hmark, hread]

theorem readLiteral_negative {minus : Char} {k n : Nat} {cs : List Char} (hm : minus = '-' ∨ minus = '−')
    (hk : 1 ≤ k) (hn : n < 10 ^ k) (hcs : EndsNumber cs) :
    readLiteral (minus :: writeDigits 10 k n ++ cs) = some (.decimal (-n), cs) := by
  have hread := readDecimal_writeDigits hk hn hcs
  have hbrace : minus ≠ openBrace := by rcases hm with rfl | rfl <;> decide
  simp [readLiteral, hbrace, hm, hread]

theorem readLiteral_hex {k n : Nat} {cs : List Char} (hk : 1 ≤ k) (hk' : k ≤ 8) (hn : n < 16 ^ k)
    (hcs : EndsNumber cs) : readLiteral ('0' :: 'x' :: hexDigits k n ++ cs) = some (.hex n, cs) := by
  have hread := readNumber_hexDigits hk hk' hn hcs
  have hbrace : '0' ≠ openBrace := by decide
  simp [readLiteral, hbrace, afterWord, hread]

theorem readLiteral_limbs {j k hi lo : Nat} (hj : 1 ≤ j) (hj' : j ≤ 4) (hk : 1 ≤ k) (hk' : k ≤ 4)
    (hh : hi < 16 ^ j) (hl : lo < 16 ^ k) (cs : List Char) :
    readLiteral (openBrace :: hexDigits j hi ++ ':' :: hexDigits k lo ++ [closeBrace] ++ cs) =
      some (.limbs hi lo, cs) := by
  have hhi : readNumber 16 4 (hexDigits j hi ++ ':' :: (hexDigits k lo ++ closeBrace :: cs)) = some (hi, _) :=
    readNumber_hexDigits hj hj' hh (endsNumber_cons (by decide) (by decide) _)
  have hlo : readNumber 16 4 (hexDigits k lo ++ closeBrace :: cs) = some (lo, closeBrace :: cs) :=
    readNumber_hexDigits hk hk' hl (endsNumber_cons (by decide) (by decide) _)
  simp [readLiteral, hhi, afterWord, hlo]

/-- However a DoubleWord is written (R67, R12), a literal that stands for it is read. -/
theorem readLiteral_of_spells {x cs : List Char} {d : DoubleWord} (h : Spells x d) (hcs : EndsNumber cs) :
    ∃ l, readLiteral (x ++ cs) = some (l, cs) ∧ l.value = d := by
  cases h with
  | decimal k n hk hn => exact ⟨_, readLiteral_decimal hk hn hcs, rfl⟩
  | negative minus k n hm hk hn => exact ⟨_, readLiteral_negative hm hk hn hcs, rfl⟩
  | hex k n hk hk' hn => exact ⟨_, readLiteral_hex hk hk' hn hcs, rfl⟩
  | limbs j k hi lo hj hj' hk hk' hh hl =>
    exact ⟨_, readLiteral_limbs hj hj' hk hk' hh hl cs, by simp [Literal.value]⟩

/-- An operand begins with no space and, unlike `DBZ`, with no `D`. -/
theorem exists_eq_cons_of_spells {x : List Char} {d : DoubleWord} (h : Spells x d) :
    ∃ c cs, x = c :: cs ∧ c ≠ ' ' ∧ c ≠ 'D' := by
  cases h with
  | decimal k n hk hn =>
    obtain ⟨c, cs, hw, m, hm, hc⟩ := exists_writeDigits_eq_cons (base := 10) (by decide) (by decide) hk n
    have hD : digit 'D' = some 13 := by decide
    refine ⟨c, cs, hw, ne_of_digit_eq_some hc (by decide), ?_⟩
    rintro rfl
    cases hc.symm.trans hD
    omega
  | negative minus k n hm hk hn => exact ⟨minus, _, rfl, by rcases hm with rfl | rfl <;> decide⟩
  | hex k n hk hk' hn => exact ⟨'0', _, rfl, by decide⟩
  | limbs j k hi lo hj hj' hk hk' hh hl => exact ⟨openBrace, _, rfl, by decide⟩

/-- There are no spaces to skip before an operand. -/
theorem skipSpaces_append_of_spells {x : List Char} {d : DoubleWord} (h : Spells x d) (cs : List Char) :
    skipSpaces (x ++ cs) = x ++ cs := by
  obtain ⟨c, r, rfl, hc, -⟩ := exists_eq_cons_of_spells h
  rw [List.cons_append, skipSpaces, if_neg hc]

@[simp] theorem skipSpaces_nil : skipSpaces [] = [] := rfl

@[simp] theorem skipSpaces_space (cs : List Char) : skipSpaces (' ' :: cs) = skipSpaces cs := rfl

end Sys2Proof.Machine
end

section
/-! Reading requests and responses (R67): every form is read as what it stands for. -/

namespace Sys2Proof.Machine

/-- Two operands with a comma and a space between them, and a word that ends them, are read as the request of their
values. -/
theorem readPair_of_spells {x y last : List Char} {a b : DoubleWord} (hx : Spells x a) (hy : Spells y b)
    (hlast : EndsNumber last) (hskip : skipSpaces last = last) (op : BitVec 1) :
    readPair op last (x ++ [',', ' '] ++ y ++ last) = some (decodeOp op a b) := by
  have hcomma : EndsNumber (',' :: ' ' :: (y ++ last)) := endsNumber_cons (by decide) (by decide) _
  obtain ⟨l, hl, rfl⟩ := readLiteral_of_spells hx hcomma
  obtain ⟨m, hm, rfl⟩ := readLiteral_of_spells hy hlast
  have hend : afterWord last last = some [] := by simpa using afterWord_append last []
  have hskipComma : skipSpaces (',' :: ' ' :: (y ++ last)) = ',' :: ' ' :: (y ++ last) := rfl
  simp [readPair, skipSpaces_append_of_spells hx, hl, hskipComma, afterWord, skipSpaces_append_of_spells hy, hm, hskip,
    hend]

/-! The four forms of a request, from their first word. -/

theorem readRequest_mul (cs : List Char) : readRequest ("MUL ".toList ++ cs) = readPair 0#1 [] cs := rfl

theorem readRequest_divs (cs : List Char) : readRequest ("DIVS ".toList ++ cs) = readPair 1#1 [] cs := rfl

theorem readRequest_multiply (cs : List Char) : readRequest ("multiply(".toList ++ cs) = readPair 0#1 [')'] cs := rfl

theorem readRequest_divideSigned (cs : List Char) :
    readRequest ("divideSigned(".toList ++ cs) = readPair 1#1 [')'] cs := rfl

theorem endsNumber_parenthesis : EndsNumber [')'] := endsNumber_cons (by decide) (by decide) []

/-- Settles O10: the first word selects the operation and what ends the operands, and the operands are read alike. -/
theorem callFormsAreAliases : Obligations.CallFormsAreAliases := by
  unfold Obligations.CallFormsAreAliases
  intro x y a b hx hy
  have hmnemonic := readPair_of_spells hx hy endsNumber_nil rfl
  have hcall := readPair_of_spells hx hy endsNumber_parenthesis rfl
  simp only [List.append_assoc, List.append_nil] at hmnemonic hcall ⊢
  exact ⟨(readRequest_mul _).trans (hmnemonic 0#1), (readRequest_multiply _).trans (hcall 0#1),
    (readRequest_divs _).trans (hmnemonic 1#1), (readRequest_divideSigned _).trans (hcall 1#1)⟩

/-- The 8 digits after `0x` spell the DoubleWord. -/
theorem spells_hexLiteral (d : DoubleWord) : Spells (hexLiteral d) d := by
  have h := Spells.hex 8 (val d) (by decide) (by decide) (val_lt d)
  rwa [dw_val] at h

/-- Settles O9: the mnemonic forms, with operands in hexadecimal. -/
theorem writtenRequestReadsBack : Obligations.WrittenRequestReadsBack := by
  unfold Obligations.WrittenRequestReadsBack
  intro i
  cases i with
  | mul a b =>
    obtain ⟨hmul, -⟩ := callFormsAreAliases _ _ a b (spells_hexLiteral a) (spells_hexLiteral b)
    exact hmul
  | divs a b =>
    obtain ⟨-, -, hdivs, -⟩ := callFormsAreAliases _ _ a b (spells_hexLiteral a) (spells_hexLiteral b)
    exact hdivs

/-- Settles O11: the text of a result is an operand, which `DBZ` is not. -/
theorem writtenResponseReadsBack : Obligations.WrittenResponseReadsBack := by
  unfold Obligations.WrittenResponseReadsBack
  refine ⟨fun x r hx => ?ok, ?dbz⟩
  case ok =>
    have hskip := skipSpaces_append_of_spells hx []
    obtain ⟨l, hl, rfl⟩ := readLiteral_of_spells hx endsNumber_nil
    obtain ⟨c, cs, rfl, -, hD⟩ := exists_eq_cons_of_spells hx
    rw [List.append_nil] at hskip hl
    simp [readResponse, afterWord, hskip, hD.symm, hl]
  case dbz => decide

end Sys2Proof.Machine
end

section
/-! MUL (R80 to R84): the two paths are one function, its limbs come from three of the four partial products, and its
unsigned value is the product mod 2^32. -/

namespace Sys2Proof.Machine

/-- R84: a partial product of two limbs is at most 65535^2. -/
theorem limb_mul_limb_le (x y : Limb) : x.toNat * y.toNat ≤ 4294836225 :=
  Nat.mul_le_mul (Nat.le_of_lt_succ (limb_lt x)) (Nat.le_of_lt_succ (limb_lt y))

/-- R82: the product of the values is the sum of the four partial products, each at its place. -/
theorem val_mul_val (a b : DoubleWord) :
    val a * val b = a.hi.toNat * b.hi.toNat * 2 ^ 32
      + (a.hi.toNat * b.lo.toNat + a.lo.toNat * b.hi.toNat) * 2 ^ 16 + a.lo.toNat * b.lo.toNat := by
  unfold val
  ring

/-- R81: on the fast path's operands the two partial products with a high limb are 0. -/
theorem multiply_eq_multiplyGeneral (a b : DoubleWord) : multiply a b = multiplyGeneral a b := by
  unfold multiply
  split
  case isTrue h =>
    obtain ⟨ha, hb⟩ := h
    simp [multiplyGeneral, ha, hb]
  case isFalse => rfl

theorem multiply_lo_toNat (a b : DoubleWord) :
    (multiply a b).lo.toNat = a.lo.toNat * b.lo.toNat % 65536 := by
  rw [multiply_eq_multiplyGeneral]
  exact BitVec.toNat_ofNat _ _

theorem multiply_hi_toNat (a b : DoubleWord) :
    (multiply a b).hi.toNat =
      (a.lo.toNat * b.lo.toNat / 65536 + a.hi.toNat * b.lo.toNat + a.lo.toNat * b.hi.toNat) % 65536 := by
  rw [multiply_eq_multiplyGeneral]
  exact BitVec.toNat_ofNat _ _

/-- R83, from R82: the fourth partial product is a multiple of 2^32, and the other three make the limbs. -/
theorem val_multiply (a b : DoubleWord) : val (multiply a b) = val a * val b % 2 ^ 32 := by
  rw [val_mul_val, val, multiply_hi_toNat, multiply_lo_toNat]
  omega

/-- R10: the signed and the unsigned value are congruent mod 2^32. -/
theorem sval_modEq_val (d : DoubleWord) : sval d ≡ val d [ZMOD 2 ^ 32] := by
  rw [← sval_emod]
  exact (Int.mod_modEq _ _).symm

/-- R83: read signed, the result is congruent to the product of the signed operands. -/
theorem sval_multiply_modEq (a b : DoubleWord) : sval (multiply a b) ≡ sval a * sval b [ZMOD 2 ^ 32] := by
  calc sval (multiply a b)
      ≡ (val a * val b : Int) [ZMOD 2 ^ 32] := by
        rw [Int.ModEq, sval_emod, val_multiply]
        push_cast
        rfl
    _ ≡ sval a * sval b [ZMOD 2 ^ 32] := ((sval_modEq_val a).mul (sval_modEq_val b)).symm

theorem multiply_comm (a b : DoubleWord) : multiply a b = multiply b a :=
  eq_of_val_eq (by rw [val_multiply, val_multiply, Nat.mul_comm])

/-- R84: only the low 16 bits of the inner sum are kept, so 16-bit arithmetic gives the same high limb. -/
theorem inner_sum_mod_eq_multiply_hi (a b : DoubleWord) :
    BitVec.ofNat 16 (a.lo.toNat * b.lo.toNat / 65536) + a.hi * b.lo + a.lo * b.hi = (multiply a b).hi := by
  apply BitVec.eq_of_toNat_eq
  rw [multiply_hi_toNat]
  simp only [BitVec.toNat_add, BitVec.toNat_mul, BitVec.toNat_ofNat, Nat.reducePow, Nat.mod_add_mod, Nat.add_mod_mod]

/-- Settles O14: the product's decomposition, and each limb by its lemma. -/
theorem mulLimbsFromPartialProducts : Obligations.MulLimbsFromPartialProducts :=
  fun a b => ⟨val_mul_val a b, multiply_lo_toNat a b, multiply_hi_toNat a b⟩

/-- Settles O13: the result is `multiply a b`, and `multiply` is commutative. -/
theorem mulAnswersProduct : Obligations.MulAnswersProduct := by
  unfold Obligations.MulAnswersProduct
  intro a b s
  have hexec : exec (.mul a b) s = .next (s.respond (.ok (multiply a b))) := execMul_eq a b s
  have hexec' : exec (.mul b a) s = .next (s.respond (.ok (multiply b a))) := execMul_eq b a s
  have hcomm : exec (.mul b a) s = exec (.mul a b) s := by rw [hexec, hexec', multiply_comm]
  exact ⟨multiply a b, hexec, val_multiply a b, sval_multiply_modEq a b, hcomm⟩

/-- Settles O15: with both high limbs zero the values are the low limbs, and their product does not wrap. -/
theorem fastPathIsNotObservable : Obligations.FastPathIsNotObservable := by
  unfold Obligations.FastPathIsNotObservable
  intro a b
  have hle := limb_mul_limb_le a.lo b.lo
  refine ⟨hle, by decide, fun ha hb => ?_, multiply_eq_multiplyGeneral a b⟩
  have hproduct : val a * val b = a.lo.toNat * b.lo.toNat := by simp [val, ha, hb]
  rw [val_multiply, hproduct]
  omega

/-- Settles O16: the bound is reached where every limb is 0xFFFF. -/
theorem mulInnerSumWidth : Obligations.MulInnerSumWidth := by
  unfold Obligations.MulInnerSumWidth
  refine ⟨fun a b => ?widths, ⟨⟨0xFFFF, 0xFFFF⟩, ⟨0xFFFF, 0xFFFF⟩, ?reached⟩, ?fits⟩
  case widths =>
    have hll := limb_mul_limb_le a.lo b.lo
    have hhl := limb_mul_limb_le a.hi b.lo
    have hlh := limb_mul_limb_le a.lo b.hi
    exact ⟨by omega, by omega, by omega, by omega, inner_sum_mod_eq_multiply_hi a b⟩
  case reached => decide
  case fits => decide

end Sys2Proof.Machine
end

section
/-! Negation-with-borrow and magnitudes (R100, R101): `neg` is two's-complement negation of the whole DoubleWord, so the
magnitude of a negative one is the negation of its signed value. -/

namespace Sys2Proof.Machine

theorem limb_pos_iff (v : Limb) : 0 < v.toNat ↔ v ≠ 0#16 := by
  rw [Nat.pos_iff_ne_zero, ne_eq, ne_eq, ← BitVec.toNat_inj]
  rfl

theorem neg_lo_toNat (d : DoubleWord) : ((neg d).lo.toNat : Int) = (-(d.lo.toNat : Int)) % 65536 := by
  simp only [neg, BitVec.toNat_ofInt]
  omega

theorem neg_hi_toNat (d : DoubleWord) :
    ((neg d).hi.toNat : Int) = (-(if d.lo ≠ 0#16 then 1 else 0) - (d.hi.toNat : Int)) % 65536 := by
  simp only [neg, BitVec.toNat_ofInt]
  omega

/-- R100: the borrow is 1 exactly when the low limb is not 0, so that the two negated limbs make up `2^32 - val d`. -/
theorem val_neg (d : DoubleWord) : val (neg d) = (2 ^ 32 - val d) % 2 ^ 32 := by
  have hlo := neg_lo_toNat d
  have hhi := neg_hi_toNat d
  have hl := limb_lt d.lo
  have hh := limb_lt d.hi
  simp only [← limb_pos_iff] at hhi
  unfold val
  split at hhi <;> omega

/-- Negating what stands for an integer gives what stands for its negation. -/
theorem neg_dw (v : Int) : neg (dw v) = dw (-v) := by
  have hneg := val_neg (dw v)
  have hv := val_dw v
  have hv' := val_dw (-v)
  exact eq_of_val_eq (by omega)

theorem neg_eq_dw (d : DoubleWord) : neg d = dw (-sval d) := by
  rw [← neg_dw, dw_sval]

/-- Settles O17: the limbs and the law are the lemmas above; the corner cases are computed. -/
theorem negIsTwosComplement : Obligations.NegIsTwosComplement :=
  ⟨fun d => ⟨neg_lo_toNat d, neg_hi_toNat d, val_neg d⟩, by decide⟩

theorem absVal_of_signBit {d : DoubleWord} (h : signBit d = true) : absVal d = neg d := if_pos h

theorem absVal_of_not_signBit {d : DoubleWord} (h : signBit d = false) : absVal d = d :=
  if_neg (by simp [h])

/-- R101: the magnitude is that of the signed value, also for `0x80000000`. -/
theorem val_absVal (d : DoubleWord) : val (absVal d) = (sval d).natAbs := by
  have hlt := val_lt d
  have hsign := signBit_eq d
  have hsval := sval_eq d
  cases h : signBit d
  case true =>
    rw [absVal_of_signBit h, val_neg]
    simp only [h, true_eq_decide_iff] at hsign
    omega
  case false =>
    rw [absVal_of_not_signBit h]
    simp only [h, false_eq_decide_iff] at hsign
    omega

/-- Settles O18: the law, and the two branches of the sign bit. -/
theorem absIsMagnitude : Obligations.AbsIsMagnitude :=
  ⟨fun d => ⟨val_absVal d, absVal_of_signBit, absVal_of_not_signBit⟩, by decide⟩

end Sys2Proof.Machine
end

section
/-! Doubleword-by-word division (R102): long division in two steps, whose remainder keeps the second quotient to one
limb. -/

namespace Sys2Proof.Machine

theorem ddw_hi_toNat (n : DoubleWord) (v : Limb) : (ddw n v).hi.toNat = n.hi.toNat / v.toNat := by
  have hle : n.hi.toNat / v.toNat ≤ n.hi.toNat := Nat.div_le_self _ _
  simp only [ddw, BitVec.toNat_ofNat]
  exact Nat.mod_eq_of_lt (hle.trans_lt (limb_lt n.hi))

/-- R102: `combined` fits 32 bits, and leaves out the highest limb value. -/
theorem combined_le (n : DoubleWord) {v : Limb} (hv : v ≠ 0#16) :
    n.hi.toNat % v.toNat * 65536 + n.lo.toNat ≤ 0xFFFEFFFF := by
  have hrem : n.hi.toNat % v.toNat < v.toNat := Nat.mod_lt _ ((limb_pos_iff v).2 hv)
  have hlt := limb_lt v
  have hlo := limb_lt n.lo
  omega

/-- R102: the remainder is below the divisor, so the low quotient fits its limb. -/
theorem ddw_lo_toNat (n : DoubleWord) {v : Limb} (hv : v ≠ 0#16) :
    (ddw n v).lo.toNat = (n.hi.toNat % v.toNat * 65536 + n.lo.toNat) / v.toNat := by
  have hpos := (limb_pos_iff v).2 hv
  have hrem : n.hi.toNat % v.toNat < v.toNat := Nat.mod_lt _ hpos
  have hlo := limb_lt n.lo
  have hq : (n.hi.toNat % v.toNat * 65536 + n.lo.toNat) / v.toNat < 65536 := by
    rw [Nat.div_lt_iff_lt_mul hpos]
    omega
  simp only [ddw, BitVec.toNat_ofNat]
  exact Nat.mod_eq_of_lt hq

/-- R102: long division of the two limbs is division of the value. -/
theorem val_ddw (n : DoubleWord) {v : Limb} (hv : v ≠ 0#16) : val (ddw n v) = val n / v.toNat := by
  have hpos := (limb_pos_iff v).2 hv
  have hsplit : val n = (n.hi.toNat % v.toNat * 65536 + n.lo.toNat) + v.toNat * (n.hi.toNat / v.toNat * 65536) := by
    conv_lhs => rw [val, ← Nat.mod_add_div n.hi.toNat v.toNat]
    ring
  rw [val, ddw_hi_toNat, ddw_lo_toNat n hv, hsplit, Nat.add_mul_div_left _ _ hpos, Nat.add_comm]

/-- Settles O19: the bound on `combined` is reached with every limb 0xFFFF but the high one of the dividend. -/
theorem ddwDividesByALimb : Obligations.DdwDividesByALimb := by
  unfold Obligations.DdwDividesByALimb
  refine ⟨fun n v hv => ⟨ddw_hi_toNat n v, ddw_lo_toNat n hv, val_ddw n hv, combined_le n hv⟩, ?reached⟩
  exact ⟨⟨0xFFFF, 0xFFFE⟩, 0xFFFF, by decide⟩

end Sys2Proof.Machine
end

section
/-! Normalization (R103): the paired shift halves the value, and the loop makes as many of them as the divisor's high
limb has bits. -/

namespace Sys2Proof.Machine

theorem shr1_hi_toNat (d : DoubleWord) : (shr1 d).hi.toNat = d.hi.toNat / 2 := by
  simp [shr1, Nat.shiftRight_eq_div_pow]

/-- R103: bit 0 of the high limb takes the place that halving the low limb leaves free. -/
theorem shr1_lo_toNat (d : DoubleWord) : (shr1 d).lo.toNat = d.hi.toNat % 2 * 2 ^ 15 + d.lo.toNat / 2 := by
  have hlo := limb_lt d.lo
  have hhalf : d.lo.toNat / 2 < 2 ^ 15 := by omega
  have hbit : (d.hi.toNat &&& 1) = d.hi.toNat % 2 := Nat.and_one_is_mod _
  have hplace : d.hi.toNat % 2 * 2 ^ 15 % 2 ^ 16 = 2 ^ 15 * (d.hi.toNat % 2) := by omega
  simp only [shr1, BitVec.toNat_or, BitVec.toNat_ushiftRight, BitVec.toNat_shiftLeft, BitVec.toNat_and,
    BitVec.toNat_ofNat, Nat.shiftLeft_eq, Nat.shiftRight_eq_div_pow, pow_one, hbit, hplace]
  rw [Nat.lor_comm, ← Nat.two_pow_add_eq_or_of_lt hhalf, Nat.mul_comm]

theorem val_shr1 (d : DoubleWord) : val (shr1 d) = val d / 2 := by
  rw [val, val, shr1_hi_toNat, shr1_lo_toNat]
  omega

theorem val_iterate_shr1 (k : Nat) (d : DoubleWord) : val (shr1^[k] d) = val d / 2 ^ k := by
  induction k generalizing d with
  | zero => simp
  | succ k ih => rw [Function.iterate_succ_apply, ih, val_shr1, Nat.div_div_eq_div_mul, ← Nat.pow_succ']

/-- The bit length of a nonzero number is one more than that of its half. -/
theorem size_eq_size_half_succ {n : Nat} (h : n ≠ 0) : n.size = (n / 2).size + 1 := by
  have hbit : Nat.bit n.bodd n.div2 ≠ 0 := by rwa [Nat.bit_bodd_div2]
  have hsize := Nat.size_bit hbit
  rwa [Nat.bit_bodd_div2, Nat.div2_val] at hsize

/-- R103: the loop ends when the high limb of the divisor is 0, after as many turns as that limb has bits. -/
theorem normalizeLoop_eq {n : Nat} {a b : DoubleWord} (k : Nat) (h : b.hi.toNat < 2 ^ n) :
    normalizeLoop n a b k = (shr1^[b.hi.toNat.size] a, shr1^[b.hi.toNat.size] b, k + b.hi.toNat.size) := by
  induction n generalizing a b k with
  | zero =>
    have hzero : b.hi.toNat = 0 := by omega
    simp [normalizeLoop, hzero]
  | succ n ih =>
    unfold normalizeLoop
    split
    case isTrue hne =>
      have hsize : b.hi.toNat.size = (shr1 b).hi.toNat.size + 1 := by
        rw [shr1_hi_toNat]
        exact size_eq_size_half_succ ((limb_pos_iff b.hi).2 hne).ne'
      have hlt : (shr1 b).hi.toNat < 2 ^ n := by
        rw [shr1_hi_toNat]
        omega
      rw [ih (k + 1) hlt, hsize, Function.iterate_succ_apply, Function.iterate_succ_apply, Nat.add_right_comm,
        Nat.add_assoc]
    case isFalse hzero =>
      have hzero : b.hi = 0#16 := not_not.1 hzero
      simp [hzero]

theorem normalize_eq (a b : DoubleWord) :
    normalize a b = (shr1^[b.hi.toNat.size] a, shr1^[b.hi.toNat.size] b, b.hi.toNat.size) := by
  rw [normalize, normalizeLoop_eq 0 (limb_lt b.hi), Nat.zero_add]

theorem val_normalize_dividend (a b : DoubleWord) : val (normalize a b).1 = val a / 2 ^ b.hi.toNat.size := by
  rw [normalize_eq, val_iterate_shr1]

theorem val_normalize_divisor (a b : DoubleWord) : val (normalize a b).2.1 = val b / 2 ^ b.hi.toNat.size := by
  rw [normalize_eq, val_iterate_shr1]

theorem normalize_count (a b : DoubleWord) : (normalize a b).2.2 = b.hi.toNat.size := by
  rw [normalize_eq]

theorem size_hi_le (d : DoubleWord) : d.hi.toNat.size ≤ 16 := Nat.size_le.2 (limb_lt d.hi)

theorem size_hi_pos {d : DoubleWord} (h : d.hi ≠ 0#16) : 1 ≤ d.hi.toNat.size :=
  Nat.size_pos.2 ((limb_pos_iff d.hi).2 h)

theorem two_pow_size_pred_le_hi {d : DoubleWord} (h : d.hi ≠ 0#16) : 2 ^ (d.hi.toNat.size - 1) ≤ d.hi.toNat :=
  Nat.lt_size.1 (Nat.sub_lt (size_hi_pos h) Nat.one_pos)

/-- R103: with a `k` bit high limb the highest 16 bits of the value start at bit `k`; they are what the shifts leave. -/
theorem val_normalize_divisor_mem (a : DoubleWord) {b : DoubleWord} (h : b.hi ≠ 0#16) :
    2 ^ 15 ≤ val (normalize a b).2.1 ∧ val (normalize a b).2.1 ≤ 65535 := by
  have hpos : 0 < 2 ^ b.hi.toNat.size := Nat.two_pow_pos _
  have htop := Nat.lt_size_self b.hi.toNat
  have hbot := two_pow_size_pred_le_hi h
  have hhalf : 2 * 2 ^ (b.hi.toNat.size - 1) = 2 ^ b.hi.toNat.size := mul_pow_sub_one (Nat.ne_of_gt (size_hi_pos h)) 2
  have hlo := limb_lt b.lo
  rw [val_normalize_divisor, Nat.le_div_iff_mul_le hpos, Nat.div_le_iff_le_mul_add_pred hpos, val]
  omega

theorem normalize_divisor_hi (a : DoubleWord) {b : DoubleWord} (h : b.hi ≠ 0#16) : (normalize a b).2.1.hi = 0#16 := by
  obtain ⟨-, hle⟩ := val_normalize_divisor_mem a h
  apply BitVec.eq_of_toNat_eq
  rw [← val_div]
  exact Nat.div_eq_of_lt (Nat.lt_succ_of_le hle)

/-- Where the divisor's high limb is not 0 at least one shift is made. -/
theorem val_normalize_dividend_lt (a : DoubleWord) {b : DoubleWord} (h : b.hi ≠ 0#16) :
    val (normalize a b).1 < 2 ^ 31 := by
  have ha := val_lt a
  have hshift : 2 ^ 1 ≤ 2 ^ b.hi.toNat.size := Nat.pow_le_pow_right two_pos (size_hi_pos h)
  rw [val_normalize_dividend, Nat.div_lt_iff_lt_mul (Nat.two_pow_pos _)]
  omega

theorem normalize_dividend_hi_lt (a : DoubleWord) {b : DoubleWord} (h : b.hi ≠ 0#16) :
    (normalize a b).1.hi.toNat < 2 ^ 15 := by
  have hlt := val_normalize_dividend_lt a h
  rw [← val_div]
  omega

/-- Settles O20: the shifts and their number, from what the loop ends with. -/
theorem normalizeShiftsInLockstep : Obligations.NormalizeShiftsInLockstep := by
  unfold Obligations.NormalizeShiftsInLockstep
  refine ⟨val_shr1, fun a b a' b' k hb hnormalize => ?_⟩
  obtain ⟨rfl, rfl, rfl⟩ : a' = (normalize a b).1 ∧ b' = (normalize a b).2.1 ∧ k = (normalize a b).2.2 := by
    simp [hnormalize]
  obtain ⟨hge, hle⟩ := val_normalize_divisor_mem a hb
  rw [normalize_count]
  exact ⟨two_pow_size_pred_le_hi hb, Nat.lt_size_self _, size_hi_pos hb, size_hi_le b, normalize_divisor_hi a hb,
    val_normalize_divisor a b, hge, hle, val_normalize_dividend a b, normalize_dividend_hi_lt a hb⟩

end Sys2Proof.Machine
end

section
/-! The trial quotient and magnitude division (R104, R105, R107). The trial quotient divides both values, each without
its low `k` bits; the correction makes up for the bits the divisor lost. -/

namespace Sys2Proof.Machine

/-- Dropping the low digit of dividend and divisor in base `s` never lowers the quotient. -/
theorem div_le_div_of_shifted (a b s : Nat) (hb : 0 < b / s) : a / b ≤ a / s / (b / s) := by
  have hs : 0 < s := Nat.pos_of_ne_zero (by rintro rfl; simp at hb)
  rw [Nat.div_div_eq_div_mul]
  exact Nat.div_le_div_left (Nat.mul_div_le b s) (Nat.mul_pos hs hb)

/-- R107: a quotient by a shifted divisor of 16 bits leaves room for what the lost bits are worth. The shift by one bit
(`s = 2`) is a case of its own, since there `q + 1` can be 2^16. -/
theorem succ_mul_pred_le {q s : Nat} (hs : s = 2 ∨ 4 ≤ s) (hq : q * s < 2 ^ 17) :
    (q + 1) * (s - 1) ≤ 2 ^ 15 * s := by
  obtain rfl | hs := hs
  · omega
  · have hfour : q * 4 ≤ q * s := Nat.mul_le_mul_left q hs
    exact Nat.mul_le_mul (by omega) (Nat.sub_le s 1)

/-- R107, upper bound: the low bits that a divisor with 16 leading bits loses raise a 32-bit quotient by at most 1. -/
theorem shifted_div_le_succ {a b s : Nat} (ha : a < 2 ^ 32) (hs : s = 2 ∨ 4 ≤ s) (hb : 2 ^ 15 ≤ b / s) :
    a / s / (b / s) ≤ a / b + 1 := by
  have hspos : 0 < s := by omega
  have hkept : s * (b / s) ≤ b := Nat.mul_div_le b s
  have hleast : s * 2 ^ 15 ≤ s * (b / s) := Nat.mul_le_mul_left s hb
  have hbpos : 0 < b := by omega
  have hlost : b ≤ s * (b / s) + (s - 1) := by
    have := Nat.lt_mul_div_succ b hspos
    rw [Nat.mul_succ] at this
    omega
  have hq : a / b * s < 2 ^ 17 := by
    have : a / b * (s * 2 ^ 15) ≤ a := (Nat.mul_le_mul_left _ (hleast.trans hkept)).trans (Nat.div_mul_le_self a b)
    rw [← Nat.mul_assoc] at this
    omega
  have hgap : (a / b + 1) * (s - 1) ≤ s * (b / s) := by
    have := succ_mul_pred_le hs hq
    omega
  rw [Nat.div_div_eq_div_mul, ← Nat.lt_succ_iff, Nat.div_lt_iff_lt_mul (Nat.mul_pos hspos (by omega))]
  calc a < (a / b + 1) * b := by rw [Nat.mul_comm]; exact Nat.lt_mul_div_succ a hbpos
    _ ≤ (a / b + 1) * (s * (b / s) + (s - 1)) := Nat.mul_le_mul_left _ hlost
    _ = (a / b + 1) * (s * (b / s)) + (a / b + 1) * (s - 1) := Nat.mul_add _ _ _
    _ ≤ (a / b + 1) * (s * (b / s)) + s * (b / s) := Nat.add_le_add_left hgap _
    _ = (a / b + 1).succ * (s * (b / s)) := (Nat.succ_mul _ _).symm

/-- R105: on the HN path the trial quotient is that of the shifted values. -/
theorem trialQuotient_eq (a : DoubleWord) {b : DoubleWord} (h : b.hi ≠ 0#16) :
    trialQuotient a b = val a / 2 ^ b.hi.toNat.size / (val b / 2 ^ b.hi.toNat.size) := by
  obtain ⟨hge, -⟩ := val_normalize_divisor_mem a h
  have hval : val (normalize a b).2.1 = (normalize a b).2.1.lo.toNat := by
    simp [val, normalize_divisor_hi a h]
  have hlo : (normalize a b).2.1.lo ≠ 0#16 := (limb_pos_iff _).1 (by omega)
  calc trialQuotient a b = val (ddw (normalize a b).1 (normalize a b).2.1.lo) := rfl
    _ = val (normalize a b).1 / val (normalize a b).2.1 := by rw [val_ddw _ hlo, hval]
    _ = _ := by rw [val_normalize_dividend, val_normalize_divisor]

/-- The number a `k` bit shift divides by, split as the upper bound of R107 is. -/
theorem two_pow_eq_two_or_ge_four {k : Nat} (h : 1 ≤ k) : 2 ^ k = 2 ∨ 4 ≤ 2 ^ k := by
  obtain rfl | h := h.eq_or_lt
  · exact .inl rfl
  · exact .inr (Nat.pow_le_pow_right two_pos h)

section
variable {a b : DoubleWord} (h : b.hi ≠ 0#16)
include h

/-- R103, without the shifted DoubleWord: the divisor keeps 16 bits. -/
theorem two_pow_15_le_shifted_val : 2 ^ 15 ≤ val b / 2 ^ b.hi.toNat.size := by
  obtain ⟨hge, -⟩ := val_normalize_divisor_mem b h
  rwa [val_normalize_divisor] at hge

theorem div_le_trialQuotient : val a / val b ≤ trialQuotient a b := by
  have hge := two_pow_15_le_shifted_val h
  rw [trialQuotient_eq a h]
  exact div_le_div_of_shifted _ _ _ (by omega)

theorem trialQuotient_le_succ : trialQuotient a b ≤ val a / val b + 1 := by
  rw [trialQuotient_eq a h]
  exact shifted_div_le_succ (val_lt a) (two_pow_eq_two_or_ge_four (size_hi_pos h)) (two_pow_15_le_shifted_val h)

theorem trialQuotient_le : trialQuotient a b ≤ 65535 := by
  have hge := two_pow_15_le_shifted_val h
  have hlt := val_normalize_dividend_lt a h
  rw [trialQuotient_eq a h, ← Nat.lt_succ_iff, Nat.div_lt_iff_lt_mul (by omega)]
  rw [val_normalize_dividend] at hlt
  omega

/-- R107: the high limb of the shifted dividend is below the shifted divisor. -/
theorem trial_ddw_hi : (ddw (normalize a b).1 (normalize a b).2.1.lo).hi = 0#16 := by
  apply BitVec.eq_of_toNat_eq
  rw [← val_div]
  exact Nat.div_eq_of_lt (Nat.lt_succ_of_le (trialQuotient_le h))

/-- R107: the shifted divisor times the trial quotient is at most the shifted dividend, and what the divisor's lost bits
add to the product is small. -/
theorem trialQuotient_mul_lt (ha : val a ≤ 2 ^ 31) : trialQuotient a b * val b < 2 ^ 32 := by
  have hge := two_pow_15_le_shifted_val h
  have ht := trialQuotient_eq a h
  have hlost := (Nat.lt_mul_div_succ (val b) (Nat.two_pow_pos b.hi.toNat.size)).le
  generalize trialQuotient a b = t at ht ⊢
  generalize 2 ^ b.hi.toNat.size = s at ht hge hlost
  have hkept : t * (s * (val b / s)) ≤ val a := by
    rw [ht, Nat.div_div_eq_div_mul]
    exact Nat.div_mul_le_self _ _
  have hsmall : t * s * 2 ^ 15 ≤ t * (s * (val b / s)) := by
    rw [← Nat.mul_assoc]
    exact Nat.mul_le_mul_left _ hge
  calc t * val b ≤ t * (s * (val b / s + 1)) := Nat.mul_le_mul_left t hlost
    _ = t * (s * (val b / s)) + t * s := by ring
    _ < 2 ^ 32 := by omega

end

theorem correct_eq {t : Nat} {a b : DoubleWord} (hb : val b ≠ 0) (hge : val a / val b ≤ t)
    (hle : t ≤ val a / val b + 1) : correct t a b = val a / val b := by
  have hpos := Nat.pos_of_ne_zero hb
  obtain ht | ht : t = val a / val b ∨ t = val a / val b + 1 := by omega
  · have hfits : t * val b ≤ val a := ht ▸ Nat.div_mul_le_self _ _
    rw [correct, if_neg hfits.not_gt, ht]
  · have hexceeds : val a < t * val b := by
      rw [ht, Nat.mul_comm]
      exact Nat.lt_mul_div_succ _ hpos
    rw [correct, if_pos hexceeds, ht, Nat.add_sub_cancel]

theorem val_ne_zero_of_hi {d : DoubleWord} (h : d.hi ≠ 0#16) : val d ≠ 0 := by
  have := (limb_pos_iff d.hi).2 h
  unfold val
  omega

/-- R107: the correction takes back the one that the trial quotient may be too high. -/
theorem correct_trialQuotient (a : DoubleWord) {b : DoubleWord} (h : b.hi ≠ 0#16) :
    correct (trialQuotient a b) a b = val a / val b :=
  correct_eq (val_ne_zero_of_hi h) (div_le_trialQuotient h) (trialQuotient_le_succ h)

/-- Settles O21: the bounds on the trial quotient, and what follows from them for DDW, CORRECT and the product. -/
theorem trialQuotientOvershootsByAtMostOne : Obligations.TrialQuotientOvershootsByAtMostOne :=
  fun a _ h => ⟨div_le_trialQuotient h, trialQuotient_le_succ h, trialQuotient_le h, trial_ddw_hi h,
    correct_trialQuotient a h, fun ha _ => trialQuotient_mul_lt h ha⟩

theorem magdiv_of_hi_zero (a : DoubleWord) {b : DoubleWord} (h : b.hi = 0#16) : magdiv a b = ddw a b.lo := if_pos h

theorem magdiv_of_hi_ne_zero (a : DoubleWord) {b : DoubleWord} (h : b.hi ≠ 0#16) :
    magdiv a b = dw (val a / val b : Nat) := by
  rw [magdiv, if_neg h, correct_trialQuotient a h]

/-- R105: on the H0 path the divisor is its low limb; on the HN path the corrected trial quotient is the quotient. -/
theorem val_magdiv (a : DoubleWord) {b : DoubleWord} (hb : val b ≠ 0) : val (magdiv a b) = val a / val b := by
  by_cases h : b.hi = 0#16
  · have hval : val b = b.lo.toNat := by simp [val, h]
    have hlo : b.lo ≠ 0#16 := (limb_pos_iff _).1 (by omega)
    rw [magdiv_of_hi_zero a h, val_ddw a hlo, hval]
  · have hlt : val a / val b < 2 ^ 32 := (Nat.div_le_self _ _).trans_lt (val_lt a)
    rw [magdiv_of_hi_ne_zero a h, ← eq_dw_iff _ hlt]

theorem magdiv_hi (a : DoubleWord) {b : DoubleWord} (h : b.hi ≠ 0#16) : (magdiv a b).hi = 0#16 := by
  have hle := (div_le_trialQuotient (a := a) h).trans (trialQuotient_le h)
  apply BitVec.eq_of_toNat_eq
  rw [← val_div, val_magdiv a (val_ne_zero_of_hi h)]
  exact Nat.div_eq_of_lt (Nat.lt_succ_of_le hle)

/-- Settles O22: the law on both paths, and the high limb on the HN path. -/
theorem magdivIsFloorDivision : Obligations.MagdivIsFloorDivision :=
  fun a _ hb => ⟨val_magdiv a hb, magdiv_hi a⟩

end Sys2Proof.Machine
end

section
/-! DIVS (R106 to R112): the limb algorithm gives `dw` of the truncated quotient of the signed values, and the laws and
corner cases are facts about that quotient. -/

namespace Sys2Proof.Machine

/-- R109's `T` is the library's division that rounds toward zero: both take the sign from the four sign combinations. -/
theorem truncatedQuotient_eq_tdiv (x y : Int) : truncatedQuotient x y = x.tdiv y := by
  have hnot (n : Nat) : ¬ (n : Int) < 0 := Int.not_lt.2 (Int.natCast_nonneg n)
  cases x <;> cases y <;> simp [truncatedQuotient, Int.tdiv, hnot]

theorem natAbs_truncatedQuotient (x y : Int) : (truncatedQuotient x y).natAbs = x.natAbs / y.natAbs := by
  rw [truncatedQuotient_eq_tdiv, Int.natAbs_tdiv]
  rfl

/-- R110: a nonzero truncated quotient is negative exactly when the signs differ. -/
theorem truncatedQuotient_neg_iff {x y : Int} (h : truncatedQuotient x y ≠ 0) :
    decide (truncatedQuotient x y < 0) = (decide (x < 0) ^^ decide (y < 0)) := by
  have hpos : 0 < ((x.natAbs / y.natAbs : Nat) : Int) := by
    rw [← natAbs_truncatedQuotient]
    omega
  unfold truncatedQuotient
  cases decide (x < 0) ^^ decide (y < 0)
  case true => simpa using hpos
  case false => simpa using hpos.le

/-- R108: of the quotients of signed 32-bit values only `-2^31 / -1` leaves the signed range. -/
theorem truncatedQuotient_mem_range_iff {x y : Int} (hx : -2 ^ 31 ≤ x) (hx' : x < 2 ^ 31) (hy : y ≠ 0) :
    (-2 ^ 31 ≤ truncatedQuotient x y ∧ truncatedQuotient x y ≤ 2 ^ 31 - 1) ↔ ¬ (x = -2 ^ 31 ∧ y = -1) := by
  obtain rfl | rfl | hbig : y = 1 ∨ y = -1 ∨ 2 ≤ y.natAbs := by omega
  · rw [truncatedQuotient_eq_tdiv, Int.tdiv_one]
    omega
  · rw [truncatedQuotient_eq_tdiv, Int.tdiv_neg, Int.tdiv_one]
    omega
  · have hhalf : x.natAbs / y.natAbs ≤ x.natAbs / 2 := Nat.div_le_div_left hbig two_pos
    rw [← natAbs_truncatedQuotient] at hhalf
    omega

theorem sval_ne_zero {d : DoubleWord} (h : val d ≠ 0) : sval d ≠ 0 := mt (val_eq_zero_iff d).2 h

/-- R109, from the sign and the magnitude: the law of the limb algorithm. -/
theorem divideSigned_eq_dw (a : DoubleWord) {b : DoubleWord} (hb : val b ≠ 0) :
    divideSigned a b = dw (truncatedQuotient (sval a) (sval b)) := by
  have hnonzero : val (absVal b) ≠ 0 := by
    rw [val_absVal]
    exact Int.natAbs_ne_zero.2 (sval_ne_zero hb)
  have hmag : magdiv (absVal a) (absVal b) = dw ((sval a).natAbs / (sval b).natAbs : Nat) := by
    rw [← dw_val (magdiv _ _), val_magdiv _ hnonzero, val_absVal, val_absVal]
  unfold divideSigned truncatedQuotient
  rw [hmag, signBit_iff_neg, signBit_iff_neg]
  cases decide (sval a < 0) ^^ decide (sval b < 0)
  case true => simp [neg_dw]
  case false => simp

/-- A signed value in range determines the DoubleWord. -/
theorem eq_dw_iff_sval (d : DoubleWord) {v : Int} (hlo : -2 ^ 31 ≤ v) (hhi : v ≤ 2 ^ 31 - 1) :
    d = dw v ↔ sval d = v := by
  constructor
  · rintro rfl
    exact sval_dw hlo hhi
  · rintro rfl
    exact (dw_sval d).symm

/-- R108's input, by its signed values. -/
theorem pinned_iff (a b : DoubleWord) :
    (a = dw 0x80000000 ∧ b = dw 0xFFFFFFFF) ↔ (sval a = -2 ^ 31 ∧ sval b = -1) := by
  have ha : dw 0x80000000 = dw (-2 ^ 31) := by decide
  have hb : dw 0xFFFFFFFF = dw (-1) := by decide
  rw [ha, hb, eq_dw_iff_sval a (by decide) (by decide), eq_dw_iff_sval b (by decide) (by decide)]

/-- R109: the truncated quotient fits the signed range on every input but R108's. -/
theorem truncatedQuotient_fits_iff (a : DoubleWord) {b : DoubleWord} (hb : val b ≠ 0) :
    (-2 ^ 31 ≤ truncatedQuotient (sval a) (sval b) ∧ truncatedQuotient (sval a) (sval b) ≤ 2 ^ 31 - 1) ↔
      ¬ (a = dw 0x80000000 ∧ b = dw 0xFFFFFFFF) := by
  obtain ⟨hlo, hhi⟩ := sval_range a
  rw [pinned_iff]
  exact truncatedQuotient_mem_range_iff hlo hhi (sval_ne_zero hb)

theorem sval_divideSigned {a b : DoubleWord} (hb : val b ≠ 0) (h : ¬ (a = dw 0x80000000 ∧ b = dw 0xFFFFFFFF)) :
    sval (divideSigned a b) = truncatedQuotient (sval a) (sval b) := by
  obtain ⟨hlo, hhi⟩ := (truncatedQuotient_fits_iff a hb).2 h
  rw [divideSigned_eq_dw a hb, sval_dw hlo hhi]

theorem exec_divs (a : DoubleWord) {b : DoubleWord} (hb : val b ≠ 0) (s : State) :
    exec (.divs a b) s = .next { s with st := .done (.ok (divideSigned a b)) } :=
  execDivs_nonzero hb s

/-- Settles O23: the answer is `divideSigned a b`, and its values are those of the truncated quotient. -/
theorem divsAnswersTruncatedQuotient : Obligations.DivsAnswersTruncatedQuotient := by
  unfold Obligations.DivsAnswersTruncatedQuotient
  intro a b s hb
  have hval : (val (divideSigned a b) : Int) = truncatedQuotient (sval a) (sval b) % 2 ^ 32 := by
    rw [divideSigned_eq_dw a hb, val_dw]
  exact ⟨divideSigned a b, exec_divs a hb s, hval, truncatedQuotient_fits_iff a hb, sval_divideSigned hb⟩

/-- R108: the mathematical quotient 2^31 is delivered mod 2^32. -/
theorem divideSigned_pinned : divideSigned (dw 0x80000000) (dw 0xFFFFFFFF) = dw 0x80000000 := by
  decide

/-- Settles O25: a result that differs from the mathematical quotient is one whose quotient does not fit. -/
theorem overflowingQuotientWraps : Obligations.OverflowingQuotientWraps := by
  unfold Obligations.OverflowingQuotientWraps
  refine ⟨fun s => ?pinned, fun a b hb => ⟨fun hne => ?onlyPinned, fun hpinned heq => ?differs⟩⟩
  case pinned => rw [exec_divs _ (by decide), divideSigned_pinned]
  case onlyPinned => exact not_not.1 (mt (sval_divideSigned hb) hne)
  case differs =>
    obtain ⟨hlo, hhi⟩ := sval_range (divideSigned a b)
    exact (truncatedQuotient_fits_iff a hb).1 (by omega) hpinned

/-- R106: a divisor of larger magnitude gives 0. -/
theorem divideSigned_of_natAbs_lt {a b : DoubleWord} (hb : val b ≠ 0) (h : (sval a).natAbs < (sval b).natAbs) :
    divideSigned a b = dw 0 := by
  have hzero : (truncatedQuotient (sval a) (sval b)).natAbs = 0 := by
    rw [natAbs_truncatedQuotient, Nat.div_eq_of_lt h]
  rw [divideSigned_eq_dw a hb, Int.natAbs_eq_zero.1 hzero]

theorem divideSigned_self {a : DoubleWord} (ha : val a ≠ 0) : divideSigned a a = dw 1 := by
  rw [divideSigned_eq_dw a ha, truncatedQuotient_eq_tdiv, Int.tdiv_self (sval_ne_zero ha)]

theorem divideSigned_one (a : DoubleWord) : divideSigned a (dw 1) = a := by
  have hone : sval (dw 1) = 1 := by decide
  rw [divideSigned_eq_dw a (by decide), truncatedQuotient_eq_tdiv, hone, Int.tdiv_one, dw_sval]

/-- R106: also for R108's dividend, since `neg` wraps as the quotient does. -/
theorem divideSigned_minus_one (a : DoubleWord) : divideSigned a (dw 0xFFFFFFFF) = neg a := by
  have hminus : sval (dw 0xFFFFFFFF) = -1 := by decide
  rw [divideSigned_eq_dw a (by decide), truncatedQuotient_eq_tdiv, hminus, Int.tdiv_neg, Int.tdiv_one, neg_eq_dw]

/-- R106: the divisor of the largest magnitude. -/
theorem divideSigned_min (a : DoubleWord) :
    divideSigned a (dw 0x80000000) = if a = dw 0x80000000 then dw 1 else dw 0 := by
  split
  case isTrue h =>
    rw [h]
    exact divideSigned_self (by decide)
  case isFalse h =>
    have hmin : dw 0x80000000 = dw (-2 ^ 31) := by decide
    have hsval : sval (dw 0x80000000) = -2 ^ 31 := by decide
    have hrange := sval_range a
    rw [hmin, eq_dw_iff_sval a (by decide) (by decide)] at h
    exact divideSigned_of_natAbs_lt (by decide) (by omega)

/-- Settles O26: each corner case is one of the lemmas above. -/
theorem divsCornerCases : Obligations.DivsCornerCases := by
  unfold Obligations.DivsCornerCases
  refine ⟨fun b hb => ?zeroDividend, fun _ _ => divideSigned_of_natAbs_lt, fun _ => divideSigned_self, divideSigned_one,
    divideSigned_minus_one, divideSigned_min⟩
  have hzero : sval (dw 0) = 0 := by decide
  have hpos := Int.natAbs_pos.2 (sval_ne_zero hb)
  exact divideSigned_of_natAbs_lt hb (by omega)

/-- R110: the magnitude of the quotient, which no sign enters; on R108's input it is 2^31. -/
theorem val_absVal_divideSigned (a : DoubleWord) {b : DoubleWord} (hb : val b ≠ 0) :
    val (absVal (divideSigned a b)) = (sval a).natAbs / (sval b).natAbs := by
  rw [val_absVal]
  by_cases h : a = dw 0x80000000 ∧ b = dw 0xFFFFFFFF
  · obtain ⟨rfl, rfl⟩ := h
    decide
  · rw [sval_divideSigned hb h, natAbs_truncatedQuotient]

theorem signBit_divideSigned {a b : DoubleWord} (hb : val b ≠ 0) (hne : divideSigned a b ≠ dw 0)
    (h : ¬ (a = dw 0x80000000 ∧ b = dw 0xFFFFFFFF)) : signBit (divideSigned a b) = (signBit a ^^ signBit b) := by
  have hquotient : truncatedQuotient (sval a) (sval b) ≠ 0 := by
    rwa [← sval_divideSigned hb h, ne_eq, ← eq_dw_iff_sval _ (by decide) (by decide)]
  rw [signBit_iff_neg, signBit_iff_neg, signBit_iff_neg, sval_divideSigned hb h, truncatedQuotient_neg_iff hquotient]

/-- R110: the implied remainder is that of truncating division. -/
theorem implied_remainder_eq {a b : DoubleWord} (hb : val b ≠ 0) (h : ¬ (a = dw 0x80000000 ∧ b = dw 0xFFFFFFFF)) :
    sval a - sval (divideSigned a b) * sval b = (sval a).tmod (sval b) := by
  rw [sval_divideSigned hb h, truncatedQuotient_eq_tdiv, Int.tmod_def, Int.mul_comm]

theorem implied_remainder_nonneg {a b : DoubleWord} (hb : val b ≠ 0) (ha : 0 ≤ sval a) :
    0 ≤ sval a - sval (divideSigned a b) * sval b := by
  have h : ¬ (a = dw 0x80000000 ∧ b = dw 0xFFFFFFFF) := by
    rw [pinned_iff]
    omega
  rw [implied_remainder_eq hb h]
  exact Int.tmod_nonneg _ ha

/-- R110: on R108's input, where the result is not the quotient, the difference is `-2^32`. -/
theorem implied_remainder_nonpos {a b : DoubleWord} (hb : val b ≠ 0) (ha : sval a ≤ 0) :
    sval a - sval (divideSigned a b) * sval b ≤ 0 := by
  by_cases h : a = dw 0x80000000 ∧ b = dw 0xFFFFFFFF
  · obtain ⟨rfl, rfl⟩ := h
    decide
  · rw [implied_remainder_eq hb h, ← neg_nonneg, ← Int.neg_tmod]
    exact Int.tmod_nonneg _ (neg_nonneg.2 ha)

/-- Settles O27: magnitude, sign and implied remainder are the lemmas above; R110's examples are computed. -/
theorem quotientRoundsTowardZero : Obligations.QuotientRoundsTowardZero :=
  ⟨fun a _ hb => ⟨val_absVal_divideSigned a hb, signBit_divideSigned hb, implied_remainder_nonneg hb,
    implied_remainder_nonpos hb⟩, by decide⟩

/-- R109, mod 2^32, for every input. -/
theorem val_divideSigned_modEq (a : DoubleWord) {b : DoubleWord} (hb : val b ≠ 0) :
    (val (divideSigned a b) : Int) ≡ (sval a).tdiv (sval b) [ZMOD 2 ^ 32] := by
  rw [divideSigned_eq_dw a hb, val_dw, truncatedQuotient_eq_tdiv]
  exact Int.mod_modEq _ _

/-- Settles O28: mod 2^32 MUL and DIVS are multiplication and truncating division, on R108's input too. -/
theorem callerComputesRemainder : Obligations.CallerComputesRemainder := by
  unfold Obligations.CallerComputesRemainder
  intro a b hb
  have hproduct : (val (multiply (divideSigned a b) b) : Int) ≡ (sval a).tdiv (sval b) * sval b [ZMOD 2 ^ 32] := by
    calc (val (multiply (divideSigned a b) b) : Int)
        ≡ val (divideSigned a b) * val b [ZMOD 2 ^ 32] := by
          rw [val_multiply]
          push_cast
          exact Int.mod_modEq _ _
      _ ≡ (sval a).tdiv (sval b) * sval b [ZMOD 2 ^ 32] :=
          (val_divideSigned_modEq a hb).mul (sval_modEq_val b).symm
  rw [Int.tmod_def, Int.mul_comm]
  exact (sval_modEq_val a).symm.sub hproduct

/-- R83: where the signed product fits it is the signed result of MUL. -/
theorem sval_multiply {a b : DoubleWord} (hlo : -2 ^ 31 ≤ sval a * sval b) (hhi : sval a * sval b ≤ 2 ^ 31 - 1) :
    sval (multiply a b) = sval a * sval b := by
  have hcong : sval (multiply a b) % 2 ^ 32 = sval a * sval b % 2 ^ 32 := sval_multiply_modEq a b
  have hrange := sval_range (multiply a b)
  omega

theorem divideSigned_multiply {a b : DoubleWord} (hb : val b ≠ 0) (hlo : -2 ^ 31 ≤ sval a * sval b)
    (hhi : sval a * sval b ≤ 2 ^ 31 - 1) : divideSigned (multiply a b) b = a := by
  rw [divideSigned_eq_dw _ hb, sval_multiply hlo hhi, truncatedQuotient_eq_tdiv,
    Int.mul_tdiv_cancel _ (sval_ne_zero hb), dw_sval]

/-- Settles O29: the truncated quotient of a product by a factor is the other factor; the counter-example is computed. -/
theorem divsUndoesMul : Obligations.DivsUndoesMul := by
  unfold Obligations.DivsUndoesMul
  refine ⟨fun a b s t hb hlo hhi => ⟨multiply a b, execMul_eq a b s, ?undone⟩, by decide⟩
  rw [exec_divs _ hb, divideSigned_multiply hb hlo hhi]

end Sys2Proof.Machine
end

section
/-! The one error, DivisionByZero (R140 to R144): what raises it, and that delivering it leaves no trace. -/

namespace Sys2Proof.Machine

/-- A response that is formed can be told from any other. -/
theorem respond_inj {s : State} {rsp rsp' : Response} : s.respond rsp = s.respond rsp' ↔ rsp = rsp' := by
  simp [State.respond]

/-- R140, R142: from every state DBZ is the answer to DIVS with a zero divisor and to nothing else. -/
theorem exec_eq_dbz_iff (i : Instr) (s : State) :
    exec i s = .next (s.respond .dbz) ↔ ∃ a b : DoubleWord, i = .divs a b ∧ val b = 0 := by
  rw [exec_eq, Host.Outcome.next.injEq, respond_inj, F_eq_dbz_iff]
  cases i with
  | mul a b => simp [Instr.op]
  | divs a b => simp [Instr.op, Instr.b]

/-- Settles O24: DBZ is characterised by the divisor alone, which is zero in the first clause and not in the third. -/
theorem divsByZeroAnswersDbz : Obligations.DivsByZeroAnswersDbz := by
  unfold Obligations.DivsByZeroAnswersDbz
  refine ⟨fun a b s hlo hhi => ?zeroDivisor, fun i s => (exec_eq_dbz_iff i s).1, fun s hdbz => ?pinned, rfl, rfl⟩
  case zeroDivisor =>
    have hb : val b = 0 := by simp [val, hlo, hhi]
    exact (exec_eq_dbz_iff (.divs a b) s).2 ⟨a, b, rfl, hb⟩
  case pinned =>
    obtain ⟨a, b, hi, hb⟩ := (exec_eq_dbz_iff _ s).1 hdbz
    obtain ⟨-, rfl⟩ := Instr.divs.inj hi
    exact absurd hb (by decide)

/-- Whether a waiting request is changed does not depend on which response is held. -/
theorem breaksHold_respond (s : State) (rsp rsp' : Response) :
    (s.respond rsp).breaksHold = (s.respond rsp').breaksHold := rfl

/-- R31, R160: the state after a taken response is IDLE, by the deliver step or by a reset, whatever was taken. -/
theorem after_respond_of_ready {s : State} (hy : s.pins.rspReady = true) (rsp : Response) :
    (s.respond rsp).after = if s.pins.rst then s.advance.resetBlock else s.advance.release := by
  cases hr : s.pins.rst with
  | true => exact after_reset (event_of_reset hr)
  | false => exact after_deliver (event_of_done_ready hr (State.respond_st s rsp) hy)

/-- R144: the step that takes a response is the same for every response. -/
theorem step_respond_of_ready {s : State} (hy : s.pins.rspReady = true) (rsp rsp' : Response) :
    step (s.respond rsp) = step (s.respond rsp') := by
  rw [step_eq, step_eq, breaksHold_respond s rsp rsp', after_respond_of_ready hy rsp, after_respond_of_ready hy rsp']

/-- Settles O42: DBZ and OK are two responses that the same step takes. -/
theorem dbzIsNotSticky : Obligations.DbzIsNotSticky := by
  unfold Obligations.DbzIsNotSticky
  exact fun _ r hy => step_respond_of_ready hy .dbz (.ok r)

end Sys2Proof.Machine
end

section
/-! Resets (R160, R161): the reset step leads to IDLE from any state and drops the operation held, and over a run nothing
but a reset keeps an answer owed from being delivered. -/

namespace Sys2Proof.Machine

theorem rspValid_of_idle {s : State} (h : s.st = .idle) : s.rspValid = false := by
  simp [State.rspValid, h]

/-- Settles O33: the reset step is never refused, and its state is IDLE, from which the outputs follow. -/
theorem resetLeadsToIdleFromAnyState : Obligations.ResetLeadsToIdleFromAnyState := by
  unfold Obligations.ResetLeadsToIdleFromAnyState
  intro s hr
  have hidle : s.after.st = .idle := by rw [after_reset (event_of_reset hr), State.resetBlock_st]
  exact ⟨s.after, step_eq_after (breaksHold_of_rst hr), hidle, (reqReady_iff s.after).2 hidle, rspValid_of_idle hidle⟩

/-- R161: after a reset step the unit owes nothing. -/
theorem owed_after_of_rst {s : State} (hr : s.pins.rst = true) : s.after.owed = [] :=
  owed_idle (by rw [after_reset (event_of_reset hr), State.resetBlock_st])

/-- Whatever the step, no answer is made up: a reset step only drops what is owed, any other keeps the account. -/
theorem delivered_append_owed_after_sublist (s : State) :
    ([s.event].filterMap Event.delivered ++ s.after.owed).Sublist
      (s.owed ++ [s.event].filterMap Event.answerDue) := by
  cases hr : s.pins.rst with
  | true =>
    rw [event_of_reset hr, owed_after_of_rst hr]
    exact List.nil_sublist _
  | false => rw [owed_append_answerDue_eq_delivered_append_owed_after hr]

/-- The same over a run, resets among its steps or not, by induction on its steps. -/
theorem delivered_append_owed_sublist {n : Nat} {s t : State} {es : List Event} (ht : trace n s = some (es, t)) :
    (es.filterMap Event.delivered ++ t.owed).Sublist (s.owed ++ es.filterMap Event.answerDue) := by
  induction n generalizing s es with
  | zero =>
    obtain ⟨rfl, rfl⟩ : [] = es ∧ s = t := by simpa [trace_zero] using ht
    simp
  | succ n ih =>
    obtain ⟨-, es', rfl, ht'⟩ := trace_succ ht
    have hrest := (ih ht').append_left ([s.event].filterMap Event.delivered)
    have hfirst := (delivered_append_owed_after_sublist s).append_right (es'.filterMap Event.answerDue)
    rw [← List.singleton_append, List.filterMap_append, List.filterMap_append]
    simp only [List.append_assoc] at hrest hfirst ⊢
    exact hrest.trans hfirst

/-- R161: a run delivers only answers that were owed at its start or to requests it accepts, in order. -/
theorem delivered_sublist {n : Nat} {s t : State} {es : List Event} (ht : trace n s = some (es, t)) :
    (es.filterMap Event.delivered).Sublist (s.owed ++ es.filterMap Event.answerDue) :=
  (List.sublist_append_left _ t.owed).trans (delivered_append_owed_sublist ht)

/-- Each request accepted makes one answer due. -/
theorem length_answersDue (es : List Event) :
    (es.filterMap Event.answerDue).length = (es.filterMap Event.request).length := by
  rw [answersDue_eq_map_requests, List.length_map]

/-- Settles O50: the account of a run; the same from the state after a reset step, which owes nothing; and the
conservation of answers without a reset, counted. -/
theorem resetDiscardsTheOperation : Obligations.ResetDiscardsTheOperation := by
  unfold Obligations.ResetDiscardsTheOperation
  refine ⟨fun n s t es ht => delivered_sublist ht, ?afterReset, ?noneLost⟩
  case afterReset =>
    intro n s t e es hr ht
    obtain ⟨-, es', hes, ht'⟩ := trace_succ ht
    obtain ⟨rfl, rfl⟩ := List.cons.inj hes
    have hlater := delivered_sublist ht'
    rw [owed_after_of_rst hr, List.nil_append] at hlater
    exact ⟨by rw [event_of_reset hr, delivered_reset], hlater⟩
  case noneLost =>
    intro n s t es ht hes
    have hcount := congrArg List.length (owed_append_answersDue_eq_delivered_append_owed ht hes)
    rwa [List.length_append, List.length_append, length_answersDue] at hcount

end Sys2Proof.Machine
end

section
/-! Hazards (R164 to R166): the caller's hold duty is the one thing that can stop a step, and the signals of the caller
do not reach the request that BUSY has captured. -/

namespace Sys2Proof.Machine

/-- Settles O40: the step in BUSY with latency left is the countdown, which touches `wait` alone. -/
theorem latencyKeepsTheCapturedRequest : Obligations.LatencyKeepsTheCapturedRequest := by
  unfold Obligations.LatencyKeepsTheCapturedRequest
  intro s op a b hs hw hr hb
  have hafter := after_latency (event_of_busy_left hr hs hw)
  refine ⟨s.after, step_eq_after hb, by rw [hafter, State.countDown_st, State.advance_st, hs], ?_⟩
  rw [hafter, State.countDown_wait, State.advance_wait]
  omega

/-- Signals that present a request hold that of `p` exactly when its `op` and its four limbs are the same (R164). -/
theorem holds_iff_fields {p q : Signals} (hv : q.reqValid = true) :
    p.holds q = true ↔ q.reqOp = p.reqOp ∧ q.reqALo = p.reqALo ∧ q.reqAHi = p.reqAHi ∧
      q.reqBLo = p.reqBLo ∧ q.reqBHi = p.reqBHi := by
  rw [holds_of_valid hv]
  simp only [Signals.a, Signals.b, DoubleWord.mk.injEq, and_assoc]

/-- A request that waits is not held exactly when the signals present another one (R164; lowering `req_valid` is I5). -/
theorem holds_eq_false_iff (p q : Signals) : p.holds q = false ↔ q.reqValid = true ∧
    ¬ (q.reqOp = p.reqOp ∧ q.reqALo = p.reqALo ∧ q.reqAHi = p.reqAHi ∧
      q.reqBLo = p.reqBLo ∧ q.reqBHi = p.reqBHi) := by
  cases hv : q.reqValid with
  | false => simp [holds_of_lowered hv]
  | true => rw [← holds_iff_fields hv]; simp

/-- The hold duty is broken exactly when a request waits, no reset is on, and the next signals do not hold it. -/
theorem breaksHold_iff (s : State) : s.breaksHold = true ↔
    ∃ q qs, s.coming = q :: qs ∧ s.pins.rst = false ∧ s.pins.reqValid = true ∧ s.reqReady = false ∧
      s.pins.holds q = false := by
  unfold State.breaksHold
  cases s.coming <;> simp [and_assoc]

/-- A step is refused exactly when the hold duty is broken. -/
theorem step_eq_refused_iff (s : State) : step s = .refused .requestNotHeld ↔ s.breaksHold = true := by
  rw [step_eq]
  cases s.breaksHold <;> simp

/-- A step is answered exactly when the hold duty is kept, and then by the state after its event. -/
theorem step_eq_next_iff {s t : State} : step s = .next t ↔ s.breaksHold = false ∧ s.after = t := by
  rw [step_eq]
  cases s.breaksHold <;> simp

/-- Where a request waits, no reset is on and the duty is kept, the signals at the next step hold it. -/
theorem holds_after_pins {s : State} (hb : s.breaksHold = false) (hr : s.pins.rst = false)
    (hv : s.pins.reqValid = true) (hw : s.reqReady = false) : s.pins.holds s.after.pins = true := by
  rw [after_pins]
  cases hc : s.coming with
  | nil => exact holds_self s.pins
  | cons q qs =>
    by_contra hq
    have hbroken := (breaksHold_iff s).2 ⟨q, qs, hc, hr, hv, hw, by simpa using hq⟩
    rw [hb] at hbroken
    cases hbroken

/-- Settles O44: the signals after an answered step hold the request that waits. -/
theorem waitingRequestIsHeld : Obligations.WaitingRequestIsHeld := by
  unfold Obligations.WaitingRequestIsHeld
  intro s t hstep hr hv hw hv'
  obtain ⟨hb, rfl⟩ := step_eq_next_iff.1 hstep
  exact (holds_iff_fields hv').1 (holds_after_pins hb hr hv hw)

/-- Settles O43: the step is refused exactly when the hold duty is broken, and is answered when it is kept. -/
theorem onlyABrokenHoldIsRefused : Obligations.OnlyABrokenHoldIsRefused := by
  unfold Obligations.OnlyABrokenHoldIsRefused
  intro s
  refine ⟨?refusedIff, ?noOtherStop⟩
  case refusedIff =>
    have hbusy : s.reqReady = false ↔ s.st ≠ .idle := by rw [← Bool.not_eq_true, Ne, reqReady_iff]
    simp only [step_eq_refused_iff, breaksHold_iff, hbusy, holds_eq_false_iff]
  case noOtherStop =>
    cases hb : s.breaksHold with
    | true => exact .inl ((step_eq_refused_iff s).2 hb)
    | false => exact .inr ⟨s.after, step_eq_after hb⟩

end Sys2Proof.Machine
end
